-- ==== Sys2Proof/Word.lean ====
section
/-! DEFINITION. The value types of 00_scope.md R14 and R11: bytes, byte strings, 64-bit tick counts. -/

namespace Sys2Proof

/-- `u8` (R14). -/
abbrev Byte := BitVec 8

/-- A finite sequence of bytes, index 0 first (R14); the contents of a buffer are its first `len` bytes (R15). -/
abbrev Bytes := List Byte

/-- A time value: an unsigned 64-bit count of `TICK`s (R11, `TIME_W = 64`). -/
abbrev Tick := BitVec 64

/-- A status pattern (R48). The spec gives patterns no form; a natural number names one
(DESIGN CHOICE, log 13; safe: no rule reads a pattern). -/
abbrev Pattern := Nat

end Sys2Proof
end

