-- ==== Sys2Proof/Syntax.lean ====
section
/-! DEFINITION. The syntax: error kinds, commands, the 25 rows of the opcode table as `Instr`, and the encoded
forms (30_encoding.md R108 to R119) that the decoder reads and the encoder writes. -/

namespace Sys2Proof

/-- The error kinds, in declaration order (60_exceptions.md R350). -/
inductive ErrorKind
  | invalidChecksum
  | unknownCommand
  | timeout
  | executionFailed
  | bufferProcessFailed
  deriving DecidableEq, Repr

/-- What `cmd_decode` gives for a supported selector (42_command_codec.md R211). -/
inductive Command
  | echoWrite (payload : Bytes)
  | i2cRead (address register length : Byte)
  | i2cWrite (address register : Byte) (payload : Bytes)
  deriving DecidableEq, Repr

/-- The two errors of `cmd_decode` (R211): an unsupported selector, with its two bytes, or unparseable operands. -/
inductive CmdError
  | unknown (method operation : Byte)
  | badOperands
  deriving DecidableEq, Repr

/-- One constructor per row of spec/opcode_table.json. -/
inductive Instr
  /-- CMD 0x0102 (R214). -/
  | echoWrite (payload : Bytes)
  /-- CMD 0x0201 (R215); operand bytes after the third are ignored (90_conflicts.md C1). -/
  | i2cRead (address register length : Byte)
  /-- CMD 0x0202 (R216). -/
  | i2cWrite (address register : Byte) (payload : Bytes)
  /-- CMD, every other selector (R111, R217 to R219); its operands are never read. -/
  | unknownCommand (method operation : Byte)
  /-- EVENT 0 (R400). -/
  | reset
  /-- EVENT 1 (R156, R284, R311). -/
  | rxByte (b : Byte)
  /-- EVENT 2 (R316). -/
  | rxOverflow
  /-- EVENT 3 (R290). -/
  | timeout
  /-- EVENT 4 (R326). -/
  | execOk (r : Bytes)
  /-- EVENT 5 (R327). -/
  | execErr (k : ErrorKind) (r : Bytes)
  /-- EVENT 6, result 0 (R255). -/
  | txResultOk
  /-- EVENT 6, result 1 (R256). -/
  | txResultFull
  /-- EVENT 6, result 2 (R257). -/
  | txResultErr
  /-- EVENT 7 (R160). -/
  | time (t : Tick)
  /-- INTERNAL 00000 (R281). -/
  | init
  /-- INTERNAL 00101 (R286). -/
  | handshakeResponseDone
  /-- INTERNAL 01000 when `decode(fb)` is a frame (R313). -/
  | frameReady
  /-- INTERNAL 01000 when `decode(fb)` is malformed (R314). -/
  | frameMalformed
  /-- INTERNAL 01100 (R320). -/
  | parseCommand
  /-- INTERNAL 10000 (R325). -/
  | executeActionStart
  /-- INTERNAL 10100 (R330). -/
  | sendResponseStart
  /-- INTERNAL 10101 (R331). -/
  | responseSent
  /-- INTERNAL 11000 (R362). -/
  | errorAction
  /-- INTERNAL 11001 (R363). -/
  | errorResolve
  /-- TXSTATE 01 (R254). -/
  | txAttempt
  deriving DecidableEq, Repr

/-- One presentation at the event port (R117): the 3-bit code and one lane per operand type; an event reads only its
own lanes. The lanes are this model's layout of "operand" (DESIGN CHOICE, log 9; safe: they only name operands). -/
structure EventWord where
  code : BitVec 3
  /-- `RxByte`'s byte. -/
  b : Byte := 0
  /-- `ExecErr`'s kind code. -/
  k : BitVec 3 := 0
  /-- `ExecOk`'s and `ExecErr`'s bytes. -/
  r : Bytes := []
  /-- `TxResult`'s 2-bit result. -/
  x : BitVec 2 := 0
  /-- `Time`'s time. -/
  t : Tick := 0
  deriving DecidableEq, Repr

/-- Which outcome `decode(fb)` has (41_framing.md R185): the condition that tells the two rows with selector 01000
apart (R119, opcode_table.json `enabled_when`). -/
inductive FrameClass
  | needMoreData
  | frame
  | malformed
  deriving DecidableEq, Repr

/-- What the decoder reads: a frame payload (CMD rows), a presentation at the event port (EVENT rows), a control
selector with the class of `decode(fb)` (INTERNAL rows), or a transmit state code (TXSTATE row). -/
inductive Encoded
  | command (payload : Bytes)
  | event (w : EventWord)
  | internal (sel : BitVec 5) (cls : FrameClass)
  | transmit (code : BitVec 2)
  deriving DecidableEq, Repr

/-- Why an encoded form is no instruction. -/
inductive DecodeError
  /-- A payload with no complete selector, or a supported selector with too few operands (R112). -/
  | badOperands
  /-- An `ExecErr` kind code above 4 (R120). -/
  | badKind
  /-- A `TxResult` of 3 (R120). -/
  | badResult
  /-- A control selector with no internal transition (R154). -/
  | noTransition
  /-- A transmit code other than 01 (R119). -/
  | noAttempt
  deriving DecidableEq, Repr

/-- One move of the environment's script: which enabled step is next (R152) and, for an event, its presentation
(DESIGN CHOICE, log 3; safe: every interleaving of R152 is some script). -/
inductive Move
  /-- The block takes an enabled internal transition now. -/
  | internal
  /-- The environment presents this event now, before any internal transition. -/
  | now (w : EventWord)
  /-- The environment holds this event back while an internal transition is enabled and presents it when none is
  (R154, R367 item 3). -/
  | whenIdle (w : EventWord)
  deriving DecidableEq, Repr

end Sys2Proof
end

