-- ==== Sys2Proof/Config.lean ====
section
/-! DEFINITION. The build-time parameters of 00_scope.md R10 (OPEN O1 to O14 of 92_eei_decisions.md). The machine
takes them as an argument: they stand in one field of State that no step changes (log 1). -/

namespace Sys2Proof

/-- `PATTERN_OF` (R10, R48): a total function on control states, written as its table, one entry per control state
(an Error state has one per kind). -/
structure PatternTable where
  init : Pattern
  waitForHandshake : Pattern
  waitForMessage : Pattern
  parseCommand : Pattern
  executeAction : Pattern
  sendResponse : Pattern
  errorInvalidChecksum : Pattern
  errorUnknownCommand : Pattern
  errorTimeout : Pattern
  errorExecutionFailed : Pattern
  errorBufferProcessFailed : Pattern
  deriving DecidableEq, Repr

/-- The parameters of R10, under the spec's names. -/
structure Params where
  handshakePhrase : Bytes
  handshakeResponse : Bytes
  echoPrefix : Bytes
  hsCap : Nat
  fbCap : Nat
  cmdCap : Nat
  respCap : Nat
  txCap : Nat
  maxPacket : Nat
  hsTimeout : Tick
  retryInterval : Tick
  retryDeadline : Tick
  /-- The unit of `now` and of every time parameter, here in nanoseconds; no rule reads it (log 14). -/
  tick : Nat
  patternOf : PatternTable
  deriving DecidableEq, Repr

/-- `TX_STAGE`, the capacity of `tx.msg` (10_state.md R46). -/
def Params.txStage (p : Params) : Nat := max p.txCap p.handshakeResponse.length

/-- The test configuration TC of R10. No source gives these values: they serve State.reset and the tests, and no
statement rests on them (DESIGN CHOICE, log 1; unsafe if one did). -/
def Params.test : Params where
  handshakePhrase := [0x48, 0x45, 0x4C, 0x4C, 0x4F]
  handshakeResponse := [0x52, 0x45, 0x41, 0x44, 0x59, 0x0A]
  echoPrefix := [0x45, 0x63, 0x68, 0x6F, 0x3A, 0x20]
  hsCap := 16
  fbCap := 16
  cmdCap := 8
  respCap := 16
  txCap := 32
  maxPacket := 8
  hsTimeout := 5000
  retryInterval := 1
  retryDeadline := 50
  tick := 1000000
  patternOf := ⟨0, 1, 2, 3, 4, 5, 6, 6, 6, 6, 6⟩

end Sys2Proof
end

