-- ==== Sys2Proof/WellFormed.lean ====
section
/-! DEFINITION. Well-formedness: the constraints of 00_scope.md R10 on a parameter set, and the operand bounds of
30_encoding.md R117 and R109 on an instruction. -/

namespace Sys2Proof

/-- Every constraint of R10's table; a model refuses a set that breaks one (R12). -/
abbrev Params.Wf (p : Params) : Prop :=
  1 ≤ p.handshakePhrase.length ∧
  (0x0A : Byte) ∉ p.handshakePhrase ∧
  p.handshakeResponse.length ≤ 2 ^ 32 - 1 ∧
  p.handshakePhrase.length + 1 ≤ p.hsCap ∧
  1 ≤ p.fbCap ∧
  25 ≤ p.txCap ∧
  1 ≤ p.maxPacket ∧
  1 ≤ p.hsTimeout.toNat ∧
  1 ≤ p.retryInterval.toNat

/-- The selectors of the supported dictionary (R109, R110), as (method, operation) pairs. -/
abbrev supported (m o : Byte) : Prop :=
  (m = 0x01 ∧ o = 0x02) ∨ (m = 0x02 ∧ o = 0x01) ∨ (m = 0x02 ∧ o = 0x02)

/-- Operand bounds: a handler result is at most `RESP_CAP` bytes (R117); an UnknownCommand's selector is none of the
dictionary's (R111). Every other operand type admits all its values. -/
def Instr.wf (p : Params) : Instr → Bool
  | .echoWrite _ => true
  | .i2cRead _ _ _ => true
  | .i2cWrite _ _ _ => true
  | .unknownCommand m o => !decide (supported m o)
  | .reset => true
  | .rxByte _ => true
  | .rxOverflow => true
  | .timeout => true
  | .execOk r => decide (r.length ≤ p.respCap)
  | .execErr _ r => decide (r.length ≤ p.respCap)
  | .txResultOk => true
  | .txResultFull => true
  | .txResultErr => true
  | .time _ => true
  | .init => true
  | .handshakeResponseDone => true
  | .frameReady => true
  | .frameMalformed => true
  | .parseCommand => true
  | .executeActionStart => true
  | .sendResponseStart => true
  | .responseSent => true
  | .errorAction => true
  | .errorResolve => true
  | .txAttempt => true

end Sys2Proof
end

