-- ==== Sys2Proof/Decode.lean ====
section
/-! DEFINITION. The decoder, total on every encoded form and rejecting by name, and the encoder after it, both from
30_encoding.md R103 to R119 and 42_command_codec.md R211. -/

namespace Sys2Proof

/-- The 3-bit kind code (60_exceptions.md R351). -/
def ErrorKind.code : ErrorKind → BitVec 3
  | .invalidChecksum => 0
  | .unknownCommand => 1
  | .timeout => 2
  | .executionFailed => 3
  | .bufferProcessFailed => 4

/-- The kind of a kind code; codes 5 to 7 are unused (R351). -/
def ErrorKind.ofCode (c : BitVec 3) : Option ErrorKind :=
  if c = 0 then some .invalidChecksum
  else if c = 1 then some .unknownCommand
  else if c = 2 then some .timeout
  else if c = 3 then some .executionFailed
  else if c = 4 then some .bufferProcessFailed
  else none

/-- `SEL`: byte 0 in bits 15:8, byte 1 in bits 7:0 (R110). -/
def selector (m o : Byte) : BitVec 16 := m ++ o

/-- `cmd_decode` (R211): the selector is checked before any operand (R213). -/
def cmdDecode (P : Bytes) : Except CmdError Command :=
  match P with
  | m :: o :: ops =>
    if selector m o = 0x0102 then .ok (.echoWrite ops)
    else if selector m o = 0x0201 then
      match ops with
      | a :: r :: l :: _ => .ok (.i2cRead a r l)
      | _ => .error .badOperands
    else if selector m o = 0x0202 then
      match ops with
      | a :: r :: q => .ok (.i2cWrite a r q)
      | _ => .error .badOperands
    else .error (.unknown m o)
  | _ => .error .badOperands

/-- A decoded command as its row of the opcode table. -/
def Command.toInstr : Command → Instr
  | .echoWrite q => .echoWrite q
  | .i2cRead a r l => .i2cRead a r l
  | .i2cWrite a r q => .i2cWrite a r q

/-- The CMD rows: `cmd_decode`, with the row UnknownCommand for an unsupported selector. -/
def decodeCommand (P : Bytes) : Except DecodeError Instr :=
  match cmdDecode P with
  | .ok c => .ok c.toInstr
  | .error (.unknown m o) => .ok (.unknownCommand m o)
  | .error .badOperands => .error .badOperands

/-- The EVENT rows (R117); operand values outside the table are refused (R120). -/
def decodeEvent (w : EventWord) : Except DecodeError Instr :=
  if w.code = 0 then .ok .reset
  else if w.code = 1 then .ok (.rxByte w.b)
  else if w.code = 2 then .ok .rxOverflow
  else if w.code = 3 then .ok .timeout
  else if w.code = 4 then .ok (.execOk w.r)
  else if w.code = 5 then
    match ErrorKind.ofCode w.k with
    | some k => .ok (.execErr k w.r)
    | none => .error .badKind
  else if w.code = 6 then
    if w.x = 0 then .ok .txResultOk
    else if w.x = 1 then .ok .txResultFull
    else if w.x = 2 then .ok .txResultErr
    else .error .badResult
  else .ok (.time w.t)

/-- The INTERNAL rows: selector (state code in bits 4:2, phase code in bits 1:0), R119 and the table of R154. -/
def decodeInternal (sel : BitVec 5) (cls : FrameClass) : Except DecodeError Instr :=
  if sel = 0b00000 then .ok .init
  else if sel = 0b00101 then .ok .handshakeResponseDone
  else if sel = 0b01000 then
    match cls with
    | .frame => .ok .frameReady
    | .malformed => .ok .frameMalformed
    | .needMoreData => .error .noTransition
  else if sel = 0b01100 then .ok .parseCommand
  else if sel = 0b10000 then .ok .executeActionStart
  else if sel = 0b10100 then .ok .sendResponseStart
  else if sel = 0b10101 then .ok .responseSent
  else if sel = 0b11000 then .ok .errorAction
  else if sel = 0b11001 then .ok .errorResolve
  else .error .noTransition

/-- The TXSTATE row (R119). -/
def decodeTransmit (code : BitVec 2) : Except DecodeError Instr :=
  if code = 0b01 then .ok .txAttempt else .error .noAttempt

/-- The decoder. -/
def decode : Encoded → Except DecodeError Instr
  | .command P => decodeCommand P
  | .event w => decodeEvent w
  | .internal sel cls => decodeInternal sel cls
  | .transmit code => decodeTransmit code

/-- The encoder: the encoded form of an instruction, unused lanes zero. -/
def encode : Instr → Encoded
  | .echoWrite q => .command (0x01 :: 0x02 :: q)
  | .i2cRead a r l => .command [0x02, 0x01, a, r, l]
  | .i2cWrite a r q => .command (0x02 :: 0x02 :: a :: r :: q)
  | .unknownCommand m o => .command [m, o]
  | .reset => .event { code := 0 }
  | .rxByte b => .event { code := 1, b := b }
  | .rxOverflow => .event { code := 2 }
  | .timeout => .event { code := 3 }
  | .execOk r => .event { code := 4, r := r }
  | .execErr k r => .event { code := 5, k := k.code, r := r }
  | .txResultOk => .event { code := 6, x := 0 }
  | .txResultFull => .event { code := 6, x := 1 }
  | .txResultErr => .event { code := 6, x := 2 }
  | .time t => .event { code := 7, t := t }
  | .init => .internal 0b00000 .needMoreData
  | .handshakeResponseDone => .internal 0b00101 .needMoreData
  | .frameReady => .internal 0b01000 .frame
  | .frameMalformed => .internal 0b01000 .malformed
  | .parseCommand => .internal 0b01100 .needMoreData
  | .executeActionStart => .internal 0b10000 .needMoreData
  | .sendResponseStart => .internal 0b10100 .needMoreData
  | .responseSent => .internal 0b10101 .needMoreData
  | .errorAction => .internal 0b11000 .needMoreData
  | .errorResolve => .internal 0b11001 .needMoreData
  | .txAttempt => .transmit 0b01

/-- The least number of operand bytes of a selector (R109's minimum `n`, less the two selector bytes). -/
def minOperandBytes (m o : Byte) : Nat :=
  if selector m o = 0x0201 then 3
  else if selector m o = 0x0202 then 2
  else 0

/-- An event row's word of the opcode table: a 3-bit code alone, or for TxResult the code 6 in bits 4:2 and the
result in bits 1:0. Operands, to which the table gives no bits, are zero. -/
def tableEvent (w : Nat) : Option EventWord :=
  if w / 4 = 6 then some { code := 6, x := BitVec.ofNat 2 (w % 4) }
  else if w < 8 ∧ w ≠ 6 then some { code := BitVec.ofNat 3 w }
  else none

/-- The encoded form of a word of the opcode table. The table's rows of different formats share words (Reset and
Init are both 0); a word of 8 bits is read as an event where it is one, then as a control selector. A width the table
itself gives a row (2, 3 or 5) reads that format (DESIGN CHOICE, log 10; safe: nothing else uses this function). -/
def tableEncoded (nbits w : Nat) : Option Encoded :=
  if nbits = 16 then
    let m : Byte := BitVec.ofNat 8 (w / 256)
    let o : Byte := BitVec.ofNat 8 w
    some (.command (m :: o :: List.replicate (minOperandBytes m o) 0))
  else if nbits = 2 then some (.transmit (BitVec.ofNat 2 w))
  else if nbits = 5 then
    match decodeInternal (BitVec.ofNat 5 w) .frame with
    | .ok _ => some (.internal (BitVec.ofNat 5 w) .frame)
    | .error _ => (tableEvent w).map .event
  else if nbits = 3 ∨ nbits = 8 then
    match tableEvent w with
    | some e => some (.event e)
    | none => if w < 32 then some (.internal (BitVec.ofNat 5 w) .frame) else none
  else none

/-- The instruction the decoder reads from a word of the opcode table. -/
def decodeTableWord (nbits w : Nat) : Option Instr :=
  match tableEncoded nbits w with
  | some e => (decode e).toOption
  | none => none

end Sys2Proof
end

