-- ==== Sys2Proof/Machine/State.lean ====
section
/-! DEFINITION. The state of 10_state.md R36 and R46 as plain data, the fault and refusal reasons, and the state
after power-on (70_reset_and_hazards.md R403). -/

namespace Sys2Proof.Machine

/-- `st`, the control state (10_state.md R30). -/
inductive SystemState
  | init
  | waitForHandshake
  | waitForMessage
  | parseCommand
  | executeAction
  | sendResponse
  | error (k : ErrorKind)
  deriving DecidableEq, Repr

/-- `ph`, the await phase (R31). -/
inductive Phase
  | run
  | awaitTx
  | awaitExec
  deriving DecidableEq, Repr

/-- A decoded frame: payload `fb[off..off+plen]`, frame `fb[0..consumed]` (R42). -/
structure FrameDesc where
  off : Nat
  plen : Nat
  consumed : Nat
  deriving DecidableEq, Repr

/-- An owned command; an EchoWrite's or I2cWrite's payload is in `cmd_buf` (R43). -/
inductive CommandOwned
  | echoWrite
  | i2cRead (address register length : Byte)
  | i2cWrite (address register : Byte)
  deriving DecidableEq, Repr

/-- `tx.sub` (R46). -/
inductive TxSub
  | ready (first : Bool) (tNext : Tick)
  | awaitResult
  deriving DecidableEq, Repr

/-- `tx`, the transmit engine's state (R46). -/
inductive TxState
  | idle
  | busy (msg : Bytes) (ci : Nat) (t0 : Tick) (sub : TxSub)
  | done (ok : Bool)
  deriving DecidableEq, Repr

/-- An entry of the transcript (40_machine_step.md R162). -/
inductive TraceItem
  /-- An accepted event. -/
  | accepted (e : Instr)
  /-- `tx_chunk(c)` (30_encoding.md R118). -/
  | txChunk (c : Bytes)
  /-- `exec_req(cmd)` with the payload in `cmd_buf` (R118, 45_message_pipeline.md R325). -/
  | execReq (c : CommandOwned) (payload : Bytes)
  /-- A write of the status signal (R48). -/
  | statusWrite (p : Pattern)
  deriving DecidableEq, Repr

/-- The machine's state: the fields of R36 under the spec's names, the build-time parameters, and the model's own two
fields `script` (log 3) and `trace` (log 4). -/
structure State where
  /-- The parameters of R10; no step changes them. -/
  params : Params
  st : SystemState
  ph : Phase
  hsDone : Bool
  deadline : Option Tick
  hsBuf : Bytes
  fb : Bytes
  fr : Option FrameDesc
  cmd : Option CommandOwned
  cmdBuf : Bytes
  resp : Bytes
  tx : TxState
  now : Tick
  status : Option Pattern
  /-- The environment's moves, the next one first. -/
  script : List Move
  /-- The transcript, the oldest entry first. -/
  trace : List TraceItem
  deriving DecidableEq, Repr

/-- Where a rule's own precondition does not hold. The block itself never faults (R153): every reachable state meets
these preconditions, and in a state that does not the spec gives the step no effect (DEDUCED, log 7; safe: the
machine stops). -/
inductive Fault
  /-- `Emit` with `tx` not Idle (43_write_retry.md R252 "precondition: tx = Idle"); raised by the instructions that
  start a message. Safe. -/
  | emitWhileBusy
  /-- ParseCommand, or a command, with `fr = None` (R320 "with fr = Some"). Safe. -/
  | noFrame
  /-- `MemRead` outside the buffer (00_scope.md R15 "defined only when i + n <= len(B)"); raised by ParseCommand. Safe. -/
  | memReadRange
  /-- `Compact` of more bytes than the buffer holds (R15 "with n <= len(B)"); raised by ParseCommand and commands. Safe. -/
  | compactRange
  /-- ExecuteAction with `cmd = None` (R55); raised by ExecuteActionStart. Safe. -/
  | noCommand
  /-- An error message that does not encode (60_exceptions.md R362 "always Ok"); only with a parameter set that R12
  refuses; raised by ErrorAction. Safe. -/
  | errorMessageTooLong
  deriving DecidableEq, Repr

/-- Why the machine has no step. -/
inductive Refusal
  /-- The instruction has no meaning in this model yet (none is left). Safe. -/
  | notModelled (mnemonic : String)
  /-- A parameter set that breaks a constraint of R10 (R12); raised by every step. Safe. -/
  | badParameters
  /-- An event outside its acceptance condition (30_encoding.md R120, R156, R157); raised by the event. Safe. -/
  | notPresentable
  /-- A handler result longer than RESP_CAP (R120); raised by ExecOk and ExecErr. Safe. -/
  | operandRefused
  /-- A completion that the handler's contract for the pending command excludes (45_message_pipeline.md R333, R334;
  log 20); raised by fetch. Unsafe for a handler that breaks the contract: no run shows it. -/
  | handlerContract
  /-- An event word with an operand outside R117's table (R120); raised by fetch. Safe. -/
  | badEvent (e : DecodeError)
  /-- An internal transition, or a command, in a state that does not select it (R154); raised by it. Safe. -/
  | notEnabled
  /-- The script asks for an internal transition and none is enabled (R154); raised by fetch. Safe. -/
  | noTransition
  /-- No internal transition is enabled and nothing is presented: the block waits (R163); raised by fetch. Safe. -/
  | noInput
  deriving DecidableEq, Repr

/-- The outcome of an instruction or a step. -/
abbrev Result := Host.Outcome State Fault Refusal

/-- The power-on state of a block built with parameters `p` (R403): every field at its reset value of R36,
`status = None`, `now` whatever the clock supplies, and a script of environment moves. -/
def State.powerOn (p : Params) (now : Tick) (script : List Move) : State where
  params := p
  st := .init
  ph := .run
  hsDone := false
  deadline := none
  hsBuf := []
  fb := []
  fr := none
  cmd := none
  cmdBuf := []
  resp := []
  tx := .idle
  now := now
  status := none
  script := script
  trace := []

/-- The power-on state with the parameters TC (log 1), `now = 0` (log 2) and no environment move (log 3): the start
state of 95_test_vectors.md's programs. -/
def State.reset : State := State.powerOn Params.test 0 []

end Sys2Proof.Machine
end

