-- ==== Sys2Proof/Machine/Flags.lean ====
section
/-! DEFINITION. The flags of 10_state.md R40 and R41 (`hs_done`, `deadline`) and the time arithmetic they and the
retry timer use (44_handshake.md R280). -/

namespace Sys2Proof.Machine

/-- `sat_add(a, b) = min(a + b, 2^64 - 1)` (R280). -/
def satAdd (a b : Tick) : Tick := BitVec.ofNat 64 (min (a.toNat + b.toNat) (2 ^ 64 - 1))

/-- `a - b` in ticks, as a natural; 0 when `b` is later, which no reachable state shows (R256; log 8). -/
def elapsed (a b : Tick) : Nat := a.toNat - b.toNat

/-- Arm the handshake deadline: `deadline <- Some(sat_add(now, HS_TIMEOUT))` (R281, 60_exceptions.md R363). -/
def State.armDeadline (s : State) : State :=
  { s with deadline := some (satAdd s.now s.params.hsTimeout) }

/-- `deadline = Some d` and `now >= d` (R290). -/
def State.deadlineElapsed (s : State) : Bool :=
  match s.deadline with
  | some d => decide (d ≤ s.now)
  | none => false

/-- `TIME_REMAINING` (10_state.md R50). -/
def State.timeRemaining (s : State) : Option Tick :=
  match s.deadline with
  | some d => if s.now < d then some (d - s.now) else some 0
  | none => none

end Sys2Proof.Machine
end

