-- ==== Sys2Proof/Machine/Frame.lean ====
section
/-! DEFINITION. The frame codec of 41_framing.md: length prefix, decode, encode. Pure functions. -/

namespace Sys2Proof.Machine

/-- What `varint_decode` returns (R181). -/
inductive LenResult
  | needMoreData
  | malformed
  | len (L p : Nat)
  deriving DecidableEq, Repr

/-- The loop of R181 at prefix byte `j` with the length `L` assembled so far; prefix byte `j` contributes
`G << (7*j)` and the length is the sum (30_encoding.md R104). -/
def varintLoop (j L : Nat) : Bytes → LenResult
  | [] => .needMoreData
  | b :: s =>
    if j = 4 ∧ b.extractLsb' 4 4 ≠ 0 then .malformed
    else if b.getLsbD 7 = false then .len (L + (b.extractLsb' 0 7).toNat * 2 ^ (7 * j)) (j + 1)
    else varintLoop (j + 1) (L + (b.extractLsb' 0 7).toNat * 2 ^ (7 * j)) s

/-- `varint_decode(s)` (R181). -/
def varintDecode (s : Bytes) : LenResult := varintLoop 0 0 s

/-- The loop of R182 with at most `fuel` groups. -/
def varintGroups : Nat → Nat → Bytes
  | 0, _ => []
  | fuel + 1, n =>
    if n / 128 = 0 then [BitVec.ofNat 8 (n % 128)]
    else BitVec.ofNat 8 (n % 128 + 128) :: varintGroups fuel (n / 128)

/-- `varint_encode(n)` for `n < 2^32` (R182): five groups are enough. -/
def varintEncode (n : Nat) : Bytes := varintGroups 5 n

/-- `plen(n)` (R183). -/
def plen (n : Nat) : Nat := (varintEncode n).length

/-- What `decode` returns (R185). -/
inductive FrameResult
  | needMoreData
  | malformed
  | frame (f : FrameDesc)
  deriving DecidableEq, Repr

/-- `decode(s)` (R185). -/
def decodeFrame (s : Bytes) : FrameResult :=
  match varintDecode s with
  | .needMoreData => .needMoreData
  | .malformed => .malformed
  | .len L p => if s.length < p + L then .needMoreData else .frame ⟨p, L, p + L⟩

/-- The outcome of `decode` without its data. -/
def FrameResult.cls : FrameResult → FrameClass
  | .needMoreData => .needMoreData
  | .malformed => .malformed
  | .frame _ => .frame

/-- `encode(P)` with destination capacity `txCap`; `none` is BufferFull (R189). -/
def encodeFrame (txCap : Nat) (P : Bytes) : Option Bytes :=
  if 2 ^ 32 ≤ P.length then none
  else if txCap < (varintEncode P.length ++ P).length then none
  else some (varintEncode P.length ++ P)

/-- A payload length that `encode` accepts (R190; 32-bit by R189). -/
def fitsFrame (txCap n : Nat) : Bool := decide (n < 2 ^ 32) && decide (plen n + n ≤ txCap)

/-- The largest `k ≤ n` with `fitsFrame txCap k`. -/
def greatestFit (txCap : Nat) : Nat → Nat
  | 0 => 0
  | n + 1 => if fitsFrame txCap (n + 1) then n + 1 else greatestFit txCap n

/-- `MAX_TX_PAYLOAD = max (n : plen(n) + n <= TX_CAP)` (R190). -/
def maxTxPayload (txCap : Nat) : Nat := greatestFit txCap txCap

end Sys2Proof.Machine
end

