-- ==== Sys2Proof/Machine/Ops.lean ====
section
/-! DEFINITION. The named operations: buffer primitives (00_scope.md R15), the control-state write (R48, R161), the
transmit engine's Emit, chunk and nch (43_write_retry.md R252, R253), taking an error and returning from one
(60_exceptions.md R356 to R363). -/

namespace Sys2Proof.Machine

/-- `Append(B, b)` on a buffer of capacity `cap`; `none` is Full (R15; log 16). -/
def append (cap : Nat) (B : Bytes) (b : Byte) : Option Bytes :=
  if B.length < cap then some (B ++ [b]) else none

/-- `CopyInto(B, s)` on a buffer of capacity `cap`: the new contents, or `none` for Full (R15). -/
def copyInto (cap : Nat) (s : Bytes) : Option Bytes :=
  if s.length ≤ cap then some s else none

/-- `Compact(B, n)`, defined only for `n <= len(B)` (R15). -/
def compact (B : Bytes) (n : Nat) : Option Bytes :=
  if n ≤ B.length then some (B.drop n) else none

/-- `MemRead(B, i, n)`, defined only for `i + n <= len(B)` (R15). -/
def memRead (B : Bytes) (i n : Nat) : Option Bytes :=
  if i + n ≤ B.length then some ((B.drop i).take n) else none

/-- `PATTERN_OF(st)` (R10). -/
def patternOf (t : PatternTable) : SystemState → Pattern
  | .init => t.init
  | .waitForHandshake => t.waitForHandshake
  | .waitForMessage => t.waitForMessage
  | .parseCommand => t.parseCommand
  | .executeAction => t.executeAction
  | .sendResponse => t.sendResponse
  | .error .invalidChecksum => t.errorInvalidChecksum
  | .error .unknownCommand => t.errorUnknownCommand
  | .error .timeout => t.errorTimeout
  | .error .executionFailed => t.errorExecutionFailed
  | .error .bufferProcessFailed => t.errorBufferProcessFailed

/-- `st <- S`: a write that changes `st` also writes `status` (40_machine_step.md R161); no other write does. -/
def State.setSt (s : State) (st' : SystemState) : State :=
  if st' = s.st then s
  else
    { s with
      st := st'
      status := some (patternOf s.params.patternOf st')
      trace := s.trace ++ [.statusWrite (patternOf s.params.patternOf st')] }

/-- TAKING AN ERROR, `raise Error(k)`: `st <- Error(k); ph <- Run`, and nothing is saved (60_exceptions.md R360). -/
def raise (k : ErrorKind) (s : State) : State := { s.setSt (.error k) with ph := .run }

/-- RETURNING FROM AN ERROR, the pseudocode of R363. -/
def resolveError (s : State) : State :=
  let c := { s with tx := .idle, resp := [], cmd := none, cmdBuf := [] }
  if s.hsDone then { c.setSt .waitForMessage with ph := .run }
  else { c.armDeadline.setSt .waitForHandshake with ph := .run }

/-- The engine's state just after `Emit(m)` at time `now` (R252). -/
def startTx (m : Bytes) (now : Tick) : TxState :=
  match m with
  | [] => .done true
  | _ :: _ => .busy m 0 now (.ready true now)

/-- `Emit(m)` and the calling rule's `ph <- AwaitTx` (R252). -/
def emit (m : Bytes) (s : State) : Result :=
  match s.tx with
  | .idle => .next { s with tx := startTx m s.now, ph := .awaitTx }
  | .busy _ _ _ _ => .fault .emitWhileBusy
  | .done _ => .fault .emitWhileBusy

/-- `nch = ceil(len(m) / MAX_PACKET)` (R253). -/
def nch (maxPacket : Nat) (m : Bytes) : Nat := (m.length + maxPacket - 1) / maxPacket

/-- Chunk `i` of `m` (R253). -/
def chunk (maxPacket : Nat) (m : Bytes) (i : Nat) : Bytes := (m.drop (i * maxPacket)).take maxPacket

/-- The ASCII name of an error kind (60_exceptions.md R351). -/
def errorName : ErrorKind → Bytes
  | .invalidChecksum =>
    [0x49, 0x6E, 0x76, 0x61, 0x6C, 0x69, 0x64, 0x43, 0x68, 0x65, 0x63, 0x6B, 0x73, 0x75, 0x6D]
  | .unknownCommand => [0x55, 0x6E, 0x6B, 0x6E, 0x6F, 0x77, 0x6E, 0x43, 0x6F, 0x6D, 0x6D, 0x61, 0x6E, 0x64]
  | .timeout => [0x54, 0x69, 0x6D, 0x65, 0x6F, 0x75, 0x74]
  | .executionFailed =>
    [0x45, 0x78, 0x65, 0x63, 0x75, 0x74, 0x69, 0x6F, 0x6E, 0x46, 0x61, 0x69, 0x6C, 0x65, 0x64]
  | .bufferProcessFailed =>
    [0x42, 0x75, 0x66, 0x66, 0x65, 0x72, 0x50, 0x72, 0x6F, 0x63, 0x65, 0x73, 0x73, 0x46, 0x61, 0x69, 0x6C, 0x65,
     0x64]

/-- `"ERR: " ++ name(k)` (R356). -/
def errorBase (k : ErrorKind) : Bytes := [0x45, 0x52, 0x52, 0x3A, 0x20] ++ errorName k

/-- `full` of R356: the base, followed by `": "` and the response bytes when there are any. -/
def errorFull (k : ErrorKind) (resp : Bytes) : Bytes :=
  if resp = [] then errorBase k else errorBase k ++ [0x3A, 0x20] ++ resp

/-- `err_msg(k)` (R356). -/
def errorMessage (txCap : Nat) (k : ErrorKind) (resp : Bytes) : Bytes :=
  (errorFull k resp).take (maxTxPayload txCap)

end Sys2Proof.Machine
end

