-- ==== Sys2Proof/Machine/Operands.lean ====
section
/-! DEFINITION. The operand forms of commands: the owned conversion `to_owned` (42_command_codec.md R222), `parse`
(R223), and the end of ParseCommand that every command shares (45_message_pipeline.md R320). -/

namespace Sys2Proof.Machine

/-- `to_owned(c)` (R222): the owned command and the new contents of `cmd_buf`. -/
def toOwned (cmdCap : Nat) : Command → Except ErrorKind (CommandOwned × Bytes)
  | .echoWrite q =>
    match copyInto cmdCap q with
    | some buf => .ok (.echoWrite, buf)
    | none => .error .bufferProcessFailed
  | .i2cRead a r l => .ok (.i2cRead a r l, [])
  | .i2cWrite a r q =>
    match copyInto cmdCap q with
    | some buf => .ok (.i2cWrite a r, buf)
    | none => .error .bufferProcessFailed

/-- The error kind of a decode failure (R212). -/
def cmdErrorKind : CmdError → ErrorKind
  | .unknown _ _ => .unknownCommand
  | .badOperands => .invalidChecksum

/-- `parse(P)` (R223). -/
def parsePayload (cmdCap : Nat) (P : Bytes) : Except ErrorKind (CommandOwned × Bytes) :=
  match cmdDecode P with
  | .ok c => toOwned cmdCap c
  | .error e => .error (cmdErrorKind e)

/-- What a command or ParseCommand needs to run: `(st, ph) = (ParseCommand, Run)` and `fr = Some f` (R320). -/
def withFrame (s : State) (k : FrameDesc → Result) : Result :=
  if s.st = .parseCommand ∧ s.ph = .run then
    match s.fr with
    | some f => k f
    | none => .fault .noFrame
  else .refused .notEnabled

/-- R320 from `Compact` on, with `r` the result of `parse`: the frame is dropped on every outcome. -/
def finishParse (f : FrameDesc) (r : Except ErrorKind (CommandOwned × Bytes)) (s : State) : Result :=
  match compact s.fb f.consumed with
  | none => .fault .compactRange
  | some fb' =>
    match r with
    | .ok (c, buf) =>
      .next ({ s with cmdBuf := buf, fb := fb', fr := none, cmd := some c }.setSt .executeAction)
    | .error k => .next (raise k { s with fb := fb', fr := none })

end Sys2Proof.Machine
end

