-- ==== Sys2Proof/Machine/Command.lean ====
section
/-! DEFINITION. The meanings of the CMD rows: what ParseCommand does with a frame that carries the command
(45_message_pipeline.md R320 with 42_command_codec.md R214 to R223; log 12). -/

namespace Sys2Proof.Machine

/-- EchoWrite (R214, R222). -/
def execEchoWrite (payload : Bytes) (s : State) : Result :=
  withFrame s fun f => finishParse f (toOwned s.params.cmdCap (.echoWrite payload)) s

/-- I2cRead (R215, R222). -/
def execI2cRead (address register length : Byte) (s : State) : Result :=
  withFrame s fun f => finishParse f (toOwned s.params.cmdCap (.i2cRead address register length)) s

/-- I2cWrite (R216, R222). -/
def execI2cWrite (address register : Byte) (payload : Bytes) (s : State) : Result :=
  withFrame s fun f => finishParse f (toOwned s.params.cmdCap (.i2cWrite address register payload)) s

/-- Any other selector (R211, R212, R217 to R219): the selector bytes only decide that the row is this one. -/
def execUnknownCommand (method operation : Byte) (s : State) : Result :=
  withFrame s fun f => finishParse f (.error (cmdErrorKind (.unknown method operation))) s

end Sys2Proof.Machine
end

