-- ==== Sys2Proof/Machine/Control.lean ====
section
/-! DEFINITION. The meanings of the INTERNAL rows, the control logic's transitions (40_machine_step.md R154). A
transition that `(st, ph)` and its condition do not enable is refused. -/

namespace Sys2Proof.Machine

/-- A transition selected by the control pair `(st, ph)`. -/
def whenAt (st : SystemState) (ph : Phase) (s : State) (k : Result) : Result :=
  if s.st = st ∧ s.ph = ph then k else .refused .notEnabled

/-- A transition selected by `(Error(k), ph)`, for any kind `k`. -/
def whenError (ph : Phase) (s : State) (f : ErrorKind → Result) : Result :=
  match s.st with
  | .error k => if s.ph = ph then f k else .refused .notEnabled
  | .init => .refused .notEnabled
  | .waitForHandshake => .refused .notEnabled
  | .waitForMessage => .refused .notEnabled
  | .parseCommand => .refused .notEnabled
  | .executeAction => .refused .notEnabled
  | .sendResponse => .refused .notEnabled

/-- The condition `tx = Done` of the AwaitTx rows. -/
def whenDone (s : State) (k : Result) : Result :=
  match s.tx with
  | .done _ => k
  | .idle => .refused .notEnabled
  | .busy _ _ _ _ => .refused .notEnabled

/-- Init (44_handshake.md R281). -/
def execInit (s : State) : Result :=
  whenAt .init .run s (.next (s.armDeadline.setSt .waitForHandshake))

/-- Handshake response done (R286). -/
def execHandshakeResponseDone (s : State) : Result :=
  whenAt .waitForHandshake .awaitTx s
    (whenDone s (.next { { s with tx := .idle }.setSt .waitForMessage with ph := .run }))

/-- Frame ready (45_message_pipeline.md R313). -/
def execFrameReady (s : State) : Result :=
  whenAt .waitForMessage .run s
    (match decodeFrame s.fb with
    | .frame f => .next ({ s with fr := some f }.setSt .parseCommand)
    | .malformed => .refused .notEnabled
    | .needMoreData => .refused .notEnabled)

/-- Malformed (R314). -/
def execFrameMalformed (s : State) : Result :=
  whenAt .waitForMessage .run s
    (match decodeFrame s.fb with
    | .malformed => .next (raise .invalidChecksum { s with fb := [] })
    | .frame _ => .refused .notEnabled
    | .needMoreData => .refused .notEnabled)

/-- ParseCommand (R320): read the payload, decode it, and do what the decoded command's row says. -/
def execParseCommand (s : State) : Result :=
  withFrame s fun f =>
    match memRead s.fb f.off f.plen with
    | none => .fault .memReadRange
    | some P =>
      match cmdDecode P with
      | .ok (.echoWrite q) => execEchoWrite q s
      | .ok (.i2cRead a r l) => execI2cRead a r l s
      | .ok (.i2cWrite a r q) => execI2cWrite a r q s
      | .error (.unknown m o) => execUnknownCommand m o s
      | .error .badOperands => finishParse f (.error (cmdErrorKind .badOperands)) s

/-- ExecuteAction start (R325): `Issue(cmd)` hands the owned command and `cmd_buf` to the handler. -/
def execExecuteActionStart (s : State) : Result :=
  whenAt .executeAction .run s
    (match s.cmd with
    | some c => .next { s with resp := [], ph := .awaitExec, trace := s.trace ++ [.execReq c s.cmdBuf] }
    | none => .fault .noCommand)

/-- SendResponse start (R330). -/
def execSendResponseStart (s : State) : Result :=
  whenAt .sendResponse .run s
    (match encodeFrame s.params.txCap s.resp with
    | some F => emit F s
    | none => .next (raise .bufferProcessFailed s))

/-- Response sent (R331). -/
def execResponseSent (s : State) : Result :=
  whenAt .sendResponse .awaitTx s
    (whenDone s (.next { { s with tx := .idle, resp := [] }.setSt .waitForMessage with ph := .run }))

/-- Error action (60_exceptions.md R362). -/
def execErrorAction (s : State) : Result :=
  whenError .run s fun k =>
    match encodeFrame s.params.txCap (errorMessage s.params.txCap k s.resp) with
    | some F => emit F s
    | none => .fault .errorMessageTooLong

/-- Error resolution (R363). -/
def execErrorResolve (s : State) : Result :=
  whenError .awaitTx s fun _ => whenDone s (.next (resolveError s))

end Sys2Proof.Machine
end

