-- ==== Sys2Proof/Machine/Observe.lean ====
section
/-! DEFINITION. Codes (10_state.md R34, 30_encoding.md R119), quiescence (40_machine_step.md R155) and the read-only
observation view (10_state.md R49 to R51). -/

namespace Sys2Proof.Machine

/-- The 3-bit state code (R34). -/
def SystemState.code : SystemState → BitVec 3
  | .init => 0
  | .waitForHandshake => 1
  | .waitForMessage => 2
  | .parseCommand => 3
  | .executeAction => 4
  | .sendResponse => 5
  | .error _ => 6

/-- The 2-bit phase code (R34). -/
def Phase.code : Phase → BitVec 2
  | .run => 0
  | .awaitTx => 1
  | .awaitExec => 2

/-- The 2-bit transmit state code (R119). -/
def TxState.code : TxState → BitVec 2
  | .idle => 0b00
  | .busy _ _ _ (.ready _ _) => 0b01
  | .busy _ _ _ .awaitResult => 0b10
  | .done _ => 0b11

/-- The control selector: state code in bits 4:2, phase code in bits 1:0 (R119). -/
def State.controlSelector (s : State) : BitVec 5 := s.st.code ++ s.ph.code

/-- Quiescent (R155). -/
def State.quiescent (s : State) : Bool :=
  decide (s.ph = .run) &&
    (decide (s.st = .waitForHandshake) ||
      (decide (s.st = .waitForMessage) && decide (decodeFrame s.fb = .needMoreData)))

/-- The read-only outputs of R49. -/
structure Observation where
  state : BitVec 3
  phase : BitVec 2
  errKind : BitVec 3
  hsDone : Bool
  timeRemaining : Option Tick
  rxReady : Bool
  hsLen : Nat
  fbLen : Nat
  cmdLen : Nat
  respLen : Nat
  txBusy : Bool
  deriving DecidableEq, Repr

/-- `ERR_KIND`: the kind code in an Error state, else 0 (R49). -/
def State.errKind (s : State) : BitVec 3 :=
  match s.st with
  | .error k => k.code
  | .init => 0
  | .waitForHandshake => 0
  | .waitForMessage => 0
  | .parseCommand => 0
  | .executeAction => 0
  | .sendResponse => 0

/-- The observation view (R49); `RX_READY` is quiescence (R51). -/
def State.observe (s : State) : Observation where
  state := s.st.code
  phase := s.ph.code
  errKind := s.errKind
  hsDone := s.hsDone
  timeRemaining := s.timeRemaining
  rxReady := s.quiescent
  hsLen := s.hsBuf.length
  fbLen := s.fb.length
  cmdLen := s.cmdBuf.length
  respLen := s.resp.length
  txBusy := decide (s.tx ≠ .idle)

/-- An idle point: quiescent with `tx = Idle` (R162). -/
def State.idlePoint (s : State) : Bool := s.quiescent && decide (s.tx = .idle)

end Sys2Proof.Machine
end

