-- ==== Sys2Proof/Machine/Event.lean ====
section
/-! DEFINITION. The meanings of the EVENT rows (40_machine_step.md R156 to R160). An event outside its acceptance
condition is refused (30_encoding.md R120). -/

namespace Sys2Proof.Machine

/-- `Reset` (70_reset_and_hazards.md R400), accepted in every state; `now` is kept, and `status` is written when `st`
changes. -/
def execReset (s : State) : Result :=
  .next
    ({ s with
        ph := .run
        hsDone := false
        deadline := none
        hsBuf := []
        fb := []
        fr := none
        cmd := none
        cmdBuf := []
        resp := []
        tx := .idle }.setSt .init)

/-- `handshake_match` (44_handshake.md R285). -/
def handshakeMatch (s : State) : Result :=
  emit s.params.handshakeResponse { s with hsDone := true, deadline := none, hsBuf := [], fb := [] }

/-- `RxByte_hs(b)` (R284): the overflow check comes first. -/
def rxByteHandshake (b : Byte) (s : State) : Result :=
  match append s.params.hsCap s.hsBuf b with
  | none => .next { s with hsBuf := [] }
  | some h =>
    if b ≠ 0x0A then .next { s with hsBuf := h }
    else if h = s.params.handshakePhrase ++ [0x0A] then handshakeMatch s
    else .next { s with hsBuf := [] }

/-- `RxByte_msg(b)` (45_message_pipeline.md R311). -/
def rxByteMessage (b : Byte) (s : State) : Result :=
  match append s.params.fbCap s.fb b with
  | none => .next (raise .invalidChecksum { s with fb := [] })
  | some fb' => .next { s with fb := fb' }

/-- `RxByte(b)`, accepted only when the block is quiescent (R156). -/
def execRxByte (b : Byte) (s : State) : Result :=
  if s.quiescent then
    if s.st = .waitForHandshake then rxByteHandshake b s else rxByteMessage b s
  else .refused .notPresentable

/-- `RxOverflow`, accepted when quiescent (45_message_pipeline.md R316). -/
def execRxOverflow (s : State) : Result :=
  if s.quiescent then .next (raise .invalidChecksum { s with fb := [] })
  else .refused .notPresentable

/-- `Timeout`, accepted when quiescent; effective only in WaitForHandshake with an elapsed deadline (R290). -/
def execTimeout (s : State) : Result :=
  if s.quiescent then
    if s.st = .waitForHandshake ∧ s.deadlineElapsed = true then
      .next (raise .timeout { s with hsBuf := [], fb := [], hsDone := false })
    else .next s
  else .refused .notPresentable

/-- A completion is accepted in `(ExecuteAction, AwaitExec)` only (R157), with at most `RESP_CAP` bytes (R120). -/
def acceptCompletion (r : Bytes) (s : State) (k : State → State) : Result :=
  if s.st = .executeAction ∧ s.ph = .awaitExec then
    if r.length ≤ s.params.respCap then .next (k { s with resp := r, cmd := none, cmdBuf := [] })
    else .refused .operandRefused
  else .refused .notPresentable

/-- `ExecOk(r)` (45_message_pipeline.md R326). -/
def execExecOk (r : Bytes) (s : State) : Result :=
  acceptCompletion r s fun t => { t.setSt .sendResponse with ph := .run }

/-- `ExecErr(k, r)` (R327). -/
def execExecErr (kind : ErrorKind) (r : Bytes) (s : State) : Result :=
  acceptCompletion r s (raise kind)

/-- `Time(t)`, accepted when `t >= now` (R160). -/
def execTime (t : Tick) (s : State) : Result :=
  if s.now ≤ t then .next { s with now := t } else .refused .notPresentable

end Sys2Proof.Machine
end

