-- ==== Sys2Proof/Machine/Transmit.lean ====
section
/-! DEFINITION. The transmit engine's step and the transport's results (43_write_retry.md R254 to R257). -/

namespace Sys2Proof.Machine

/-- Attempt (R254): hand the chunk to the transport; the first attempt of a chunk sets `t0`. -/
def execTxAttempt (s : State) : Result :=
  match s.tx with
  | .busy msg ci t0 (.ready first tNext) =>
    if tNext ≤ s.now then
      .next
        { s with
          tx := .busy msg ci (if first then s.now else t0) .awaitResult
          trace := s.trace ++ [.txChunk (chunk s.params.maxPacket msg ci)] }
    else .refused .notEnabled
  | .busy _ _ _ .awaitResult => .refused .notEnabled
  | .idle => .refused .notEnabled
  | .done _ => .refused .notEnabled

/-- A result is accepted when `tx = Busy` with `sub = AwaitResult` (40_machine_step.md R157). -/
def acceptResult (s : State) (k : Bytes → Nat → Tick → TxState) : Result :=
  match s.tx with
  | .busy msg ci t0 .awaitResult => .next { s with tx := k msg ci t0 }
  | .busy _ _ _ (.ready _ _) => .refused .notPresentable
  | .idle => .refused .notPresentable
  | .done _ => .refused .notPresentable

/-- `TxResult(Ok)` (R255). -/
def execTxResultOk (s : State) : Result :=
  acceptResult s fun msg ci _ =>
    if ci + 1 = nch s.params.maxPacket msg then .done true
    else .busy msg (ci + 1) s.now (.ready true s.now)

/-- `TxResult(Full)` (R256). -/
def execTxResultFull (s : State) : Result :=
  acceptResult s fun msg ci t0 =>
    if s.params.retryDeadline.toNat ≤ elapsed s.now t0 then .done false
    else .busy msg ci t0 (.ready false (satAdd s.now s.params.retryInterval))

/-- `TxResult(Err)` (R257). -/
def execTxResultErr (s : State) : Result :=
  acceptResult s fun _ _ _ => .done false

end Sys2Proof.Machine
end

