-- ==== Sys2Proof/Machine/Dispatch.lean ====
section
/-! DEFINITION. One arm per row of spec/opcode_table.json. -/

namespace Sys2Proof.Machine

def exec (i : Instr) (s : State) : Host.Outcome State Fault Refusal :=
  match i with
  | .echoWrite payload => Sys2Proof.Machine.execEchoWrite payload s
  | .i2cRead address register length => Sys2Proof.Machine.execI2cRead address register length s
  | .i2cWrite address register payload => Sys2Proof.Machine.execI2cWrite address register payload s
  | .unknownCommand method operation => Sys2Proof.Machine.execUnknownCommand method operation s
  | .reset => Sys2Proof.Machine.execReset s
  | .rxByte b => Sys2Proof.Machine.execRxByte b s
  | .rxOverflow => Sys2Proof.Machine.execRxOverflow s
  | .timeout => Sys2Proof.Machine.execTimeout s
  | .execOk r => Sys2Proof.Machine.execExecOk r s
  | .execErr k r => Sys2Proof.Machine.execExecErr k r s
  | .txResultOk => Sys2Proof.Machine.execTxResultOk s
  | .txResultFull => Sys2Proof.Machine.execTxResultFull s
  | .txResultErr => Sys2Proof.Machine.execTxResultErr s
  | .time t => Sys2Proof.Machine.execTime t s
  | .init => Sys2Proof.Machine.execInit s
  | .handshakeResponseDone => Sys2Proof.Machine.execHandshakeResponseDone s
  | .frameReady => Sys2Proof.Machine.execFrameReady s
  | .frameMalformed => Sys2Proof.Machine.execFrameMalformed s
  | .parseCommand => Sys2Proof.Machine.execParseCommand s
  | .executeActionStart => Sys2Proof.Machine.execExecuteActionStart s
  | .sendResponseStart => Sys2Proof.Machine.execSendResponseStart s
  | .responseSent => Sys2Proof.Machine.execResponseSent s
  | .errorAction => Sys2Proof.Machine.execErrorAction s
  | .errorResolve => Sys2Proof.Machine.execErrorResolve s
  | .txAttempt => Sys2Proof.Machine.execTxAttempt s

end Sys2Proof.Machine
end

