-- ==== Sys2Proof/Machine/Handler.lean ====
section
/-! DEFINITION. The handler's contract (45_message_pipeline.md R333 to R336): which completions the environment may
draw for the pending command. -/

namespace Sys2Proof.Machine

/-- A completion of the handler: `ExecOk` or `ExecErr` (40_machine_step.md R165). -/
def isCompletion : Instr → Bool
  | .execOk _ | .execErr _ _ => true
  | .echoWrite _ | .i2cRead _ _ _ | .i2cWrite _ _ _ | .unknownCommand _ _ => false
  | .reset | .rxByte _ | .rxOverflow | .timeout | .txResultOk | .txResultFull | .txResultErr | .time _ => false
  | .init | .handshakeResponseDone | .frameReady | .frameMalformed | .parseCommand | .executeActionStart => false
  | .sendResponseStart | .responseSent | .errorAction | .errorResolve | .txAttempt => false

/-- The one answer to EchoWrite (R334): the prefix and the payload, or BufferProcessFailed where they do not fit. -/
def echoAnswer (p : Params) (payload : Bytes) : Instr :=
  if (p.echoPrefix ++ payload).length ≤ p.respCap then .execOk (p.echoPrefix ++ payload)
  else .execErr .bufferProcessFailed []

/-- What the handler may answer to an issued command: the echo answer to EchoWrite (R334), any completion to the I2C
commands (R335, R336). The bound `len(r) <= RESP_CAP` is the acceptance condition of the event itself
(30_encoding.md R120). -/
def handlerAnswers (p : Params) (c : CommandOwned) (payload : Bytes) (answer : Instr) : Bool :=
  match c with
  | .echoWrite => decide (answer = echoAnswer p payload)
  | .i2cRead _ _ _ => isCompletion answer
  | .i2cWrite _ _ => isCompletion answer

/-- The command the handler works on, in `(ExecuteAction, AwaitExec)`; its payload is in `cmd_buf` (R325). -/
def State.pendingCommand (s : State) : Option CommandOwned :=
  if s.st = .executeAction ∧ s.ph = .awaitExec then s.cmd else none

/-- The environment may draw the event `i`: a completion of the pending command keeps the handler's contract (R333;
log 20). -/
def State.keepsContract (s : State) (i : Instr) : Bool :=
  match s.pendingCommand with
  | some c => !isCompletion i || handlerAnswers s.params c s.cmdBuf i
  | none => true

end Sys2Proof.Machine
end

