-- ==== Sys2Proof/Machine/Fetch.lean ====
section
/-! DEFINITION. Which instruction the next step runs: the enabled internal transition (40_machine_step.md R154) or the
event the environment presents (R152, R156, R157), as the script says (log 3). -/

namespace Sys2Proof.Machine

/-- The control logic's enabled transition (R154): the row its selector and `decode(fb)` name, which in `AwaitTx` is
enabled only when `tx = Done`. -/
def State.controlTransition (s : State) : Option Instr :=
  if s.ph = .awaitTx ∧ s.tx.code ≠ 0b11 then none
  else (decode (.internal s.controlSelector (decodeFrame s.fb).cls)).toOption

/-- The transmit engine's enabled transition (43_write_retry.md R254). -/
def State.transmitTransition (s : State) : Option Instr :=
  match s.tx with
  | .busy _ _ _ (.ready _ tNext) =>
    if tNext ≤ s.now then (decode (.transmit s.tx.code)).toOption else none
  | .busy _ _ _ .awaitResult => none
  | .idle => none
  | .done _ => none

/-- The enabled internal transition. Where both agents have one, which no legal state allows (R251), the control
logic goes first (DESIGN CHOICE, log 6). -/
def State.internalTransition (s : State) : Option Instr :=
  match s.controlTransition with
  | some i => some i
  | none => s.transmitTransition

/-- The environment presents `w`: the step leaves the rest of the script and records the event, before the event's
own rule runs. A completion outside the handler's contract is no draw of the environment (45_message_pipeline.md
R333). -/
def present (w : EventWord) (rest : List Move) (s : State) : Except Refusal (Instr × State) :=
  match decode (.event w) with
  | .ok i =>
    if s.keepsContract i then .ok (i, { s with script := rest, trace := s.trace ++ [.accepted i] })
    else .error .handlerContract
  | .error e => .error (.badEvent e)

/-- The instruction of the next step and the state it runs in, or why there is none. A parameter set that breaks R10
is refused (00_scope.md R12). -/
def fetch (s : State) : Except Refusal (Instr × State) :=
  if s.params.Wf then
    match s.script with
    | [] =>
      match s.internalTransition with
      | some i => .ok (i, s)
      | none => .error .noInput
    | .internal :: rest =>
      match s.internalTransition with
      | some i => .ok (i, { s with script := rest })
      | none => .error .noTransition
    | .now w :: rest => present w rest s
    | .whenIdle w :: rest =>
      match s.internalTransition with
      | some i => .ok (i, s)
      | none => present w rest s
  else .error .badParameters

/-- `s` with the move `m` at the head of its script. -/
def State.push (m : Move) (s : State) : State := { s with script := m :: s.script }

/-- `s` with the event of `w` at the head of its script. -/
def State.pushEvent (e : Encoded) (s : State) : State :=
  match e with
  | .event w => s.push (.now w)
  | .command _ => s
  | .internal _ _ => s
  | .transmit _ => s

/-- `s` in ParseCommand with a whole frame of payload `P` decoded. -/
def State.placePayload (P : Bytes) (s : State) : State :=
  { s with
    st := .parseCommand
    ph := .run
    fb := varintEncode P.length ++ P
    fr := some ⟨plen P.length, P.length, plen P.length + P.length⟩ }

/-- `s` if it is quiescent, else `s` waiting for a handshake byte. -/
def State.placeQuiescent (s : State) : State :=
  if s.quiescent then s else { s with st := .waitForHandshake, ph := .run }

/-- `s` with an I2cRead issued to the handler, which may answer it with any completion (R335). -/
def State.placeAwaitExec (s : State) : State :=
  { s with st := .executeAction, ph := .awaitExec, cmd := some (.i2cRead 0 0 0) }

/-- `s` with a one-byte message whose chunk waits for the transport's result. -/
def State.placeAwaitResult (s : State) : State := { s with tx := .busy [0] 0 s.now .awaitResult }

/-- `s` at the control pair `(st, ph)` with the engine in state `tx`. -/
def State.placeControl (st : SystemState) (ph : Phase) (tx : TxState) (s : State) : State :=
  { s with st := st, ph := ph, tx := tx }

/-- `s` with the instruction `i` placed so that the next step runs it: the control pair, the frame, the pending
command or the engine state that selects or accepts it, and a move at the head of the script (log 11). -/
def State.place (s : State) (i : Instr) : State :=
  match i with
  | .echoWrite q => (s.placePayload (0x01 :: 0x02 :: q)).push .internal
  | .i2cRead a r l => (s.placePayload [0x02, 0x01, a, r, l]).push .internal
  | .i2cWrite a r q => (s.placePayload (0x02 :: 0x02 :: a :: r :: q)).push .internal
  | .unknownCommand m o => (s.placePayload [m, o]).push .internal
  | .reset => s.pushEvent (encode i)
  | .rxByte _ => s.placeQuiescent.pushEvent (encode i)
  | .rxOverflow => s.placeQuiescent.pushEvent (encode i)
  | .timeout => s.placeQuiescent.pushEvent (encode i)
  | .execOk _ => s.placeAwaitExec.pushEvent (encode i)
  | .execErr _ _ => s.placeAwaitExec.pushEvent (encode i)
  | .txResultOk => s.placeAwaitResult.pushEvent (encode i)
  | .txResultFull => s.placeAwaitResult.pushEvent (encode i)
  | .txResultErr => s.placeAwaitResult.pushEvent (encode i)
  | .time t => { s with now := if s.now ≤ t then s.now else t }.pushEvent (encode i)
  | .init => { s with st := .init, ph := .run }.push .internal
  | .handshakeResponseDone => (s.placeControl .waitForHandshake .awaitTx (.done true)).push .internal
  | .frameReady => { s with st := .waitForMessage, ph := .run, fb := [0x00] }.push .internal
  | .frameMalformed =>
    { s with st := .waitForMessage, ph := .run, fb := [0x80, 0x80, 0x80, 0x80, 0x80] }.push .internal
  | .parseCommand => (s.placePayload [0x01, 0x02]).push .internal
  | .executeActionStart => { s with st := .executeAction, ph := .run, cmd := some .echoWrite }.push .internal
  | .sendResponseStart => (s.placeControl .sendResponse .run .idle).push .internal
  | .responseSent => (s.placeControl .sendResponse .awaitTx (.done true)).push .internal
  | .errorAction => (s.placeControl (.error .invalidChecksum) .run .idle).push .internal
  | .errorResolve => (s.placeControl (.error .invalidChecksum) .awaitTx (.done true)).push .internal
  | .txAttempt => (s.placeControl .sendResponse .awaitTx (.busy [0] 0 s.now (.ready true s.now))).push .internal

/-- A chunk of received bytes as that many `RxByte` events in order, each held back while the block is busy
(40_machine_step.md R156, R167). -/
def rxMoves (bs : Bytes) : List Move := bs.map fun b => .whenIdle { code := 1, b := b }

end Sys2Proof.Machine
end

