-- ==== Sys2Proof/Machine/Step.lean ====
section
/-! DEFINITION. One step (40_machine_step.md R151): exactly one internal transition or one accepted event. -/

namespace Sys2Proof.Machine

def step (s : State) : Host.Outcome State Fault Refusal :=
  match fetch s with
  | .ok (i, t) => exec i t
  | .error r => .refused r

/-- `s` with the instruction of a word of the opcode table placed where the next step finds it (log 10, log 11). -/
def State.withFetchWord (s : State) (nbits w : Nat) : State :=
  match decodeTableWord nbits w with
  | some i => s.place i
  | none => s

end Sys2Proof.Machine
end

