-- ==== Sys2Proof/Machine/HostSyntax.lean ====
section
/-! DEFINITION. The host's command text encoder, the block's assembler syntax (42_command_codec.md R230 to R238). It
runs on the host, outside the block (00_scope.md R7). A text is the byte string of its ASCII characters (log 15);
`none` is EncodeError. -/

namespace Sys2Proof.Machine

/-- ASCII whitespace: 0x20, or 0x09 to 0x0D (R231). -/
def isSpace (b : Byte) : Bool := decide (b = 0x20) || (decide (0x09 ≤ b) && decide (b ≤ 0x0D))

/-- The tokens of a text, `cur` being the token read so far (R231). -/
def tokensFrom (cur : Bytes) : Bytes → List Bytes
  | [] => if cur = [] then [] else [cur]
  | b :: bs =>
    if isSpace b then
      if cur = [] then tokensFrom [] bs else cur :: tokensFrom [] bs
    else tokensFrom (cur ++ [b]) bs

/-- `T`, the text split at runs of whitespace (R231). -/
def tokens (text : Bytes) : List Bytes := tokensFrom [] text

/-- The value of a digit character, `0-9`, `a-f` or `A-F`, below `base` (R237). -/
def digit (base : Nat) (b : Byte) : Option Nat :=
  let v :=
    if 0x30 ≤ b ∧ b ≤ 0x39 then b.toNat - 0x30
    else if 0x61 ≤ b ∧ b ≤ 0x66 then b.toNat - 0x61 + 10
    else if 0x41 ≤ b ∧ b ≤ 0x46 then b.toNat - 0x41 + 10
    else 16
  if v < base then some v else none

/-- Digits read most significant first, after the value `acc` of the digits before them. -/
def digitsFrom (base acc : Nat) : Bytes → Option Nat
  | [] => some acc
  | b :: bs =>
    match digit base b with
    | some d => digitsFrom base (acc * base + d) bs
    | none => none

/-- One or more digits with a value of at most 255, as a byte (R237). -/
def byteOfDigits (base : Nat) (ds : Bytes) : Option Byte :=
  if ds = [] then none
  else
    match digitsFrom base 0 ds with
    | some v => if v ≤ 255 then some (BitVec.ofNat 8 v) else none
    | none => none

/-- `num(t)`: `0x` hexadecimal, `0b` binary, else decimal (R237). -/
def num (t : Bytes) : Option Byte :=
  if t.take 2 = [0x30, 0x78] then byteOfDigits 16 (t.drop 2)
  else if t.take 2 = [0x30, 0x62] then byteOfDigits 2 (t.drop 2)
  else byteOfDigits 10 t

/-- Every token a number (R236). -/
def nums : List Bytes → Option Bytes
  | [] => some []
  | t :: ts =>
    match num t, nums ts with
    | some b, some bs => some (b :: bs)
    | _, _ => none

/-- Tokens joined by single spaces (R233). -/
def joinTokens : List Bytes → Bytes
  | [] => []
  | [t] => t
  | t :: u :: ts => t ++ [0x20] ++ joinTokens (u :: ts)

/-- `echo`. -/
def kwEcho : Bytes := [0x65, 0x63, 0x68, 0x6F]

/-- `i2c`. -/
def kwI2c : Bytes := [0x69, 0x32, 0x63]

/-- `read`. -/
def kwRead : Bytes := [0x72, 0x65, 0x61, 0x64]

/-- `write`. -/
def kwWrite : Bytes := [0x77, 0x72, 0x69, 0x74, 0x65]

/-- `echo <text>` after the keyword (R233). -/
def encodeEcho (args : List Bytes) : Option Bytes :=
  match args with
  | [] => none
  | _ :: _ => some (0x01 :: 0x02 :: joinTokens args)

/-- `i2c read <address> <register> <length>` after the keywords (R235; 90_conflicts.md C2). -/
def encodeI2cRead (args : List Bytes) : Option Bytes :=
  if args.length = 3 then (nums args).map fun bs => 0x02 :: 0x01 :: bs else none

/-- `i2c write <address> <register> <byte> ...` after the keywords (R236). -/
def encodeI2cWrite (args : List Bytes) : Option Bytes :=
  if 3 ≤ args.length then (nums args).map fun bs => 0x02 :: 0x02 :: bs else none

/-- `host_encode(text)` (R230 to R236). -/
def hostEncode (text : Bytes) : Option Bytes :=
  match tokens text with
  | [] => none
  | m :: args =>
    if m = kwEcho then encodeEcho args
    else if m = kwI2c then
      match args with
      | [] => none
      | op :: rest =>
        if op = kwRead then encodeI2cRead rest
        else if op = kwWrite then encodeI2cWrite rest
        else none
    else none

end Sys2Proof.Machine
end

