-- ==== Sys2Proof/Safety.lean ====
section
/-! DEFINITION. What a safe run is, in the terms the statements use: the legal control pairs (10_state.md R32), the
invariant that joins R32 and R53 to R55 with what makes it inductive, reachability, and the readings of a transcript. -/

namespace Sys2Proof.Safety

open Sys2Proof.Machine

/-- The pattern that a write of `status` on entry to `st` shows (R48). -/
abbrev pat (s : State) (st : SystemState) : Pattern := patternOf s.params.patternOf st

/-- The legal `(st, ph)` pairs (R32). -/
def legalPair : SystemState → Phase → Bool
  | .init, .run => true
  | .init, .awaitTx => false
  | .init, .awaitExec => false
  | .waitForHandshake, .run => true
  | .waitForHandshake, .awaitTx => true
  | .waitForHandshake, .awaitExec => false
  | .waitForMessage, .run => true
  | .waitForMessage, .awaitTx => false
  | .waitForMessage, .awaitExec => false
  | .parseCommand, .run => true
  | .parseCommand, .awaitTx => false
  | .parseCommand, .awaitExec => false
  | .executeAction, .run => true
  | .executeAction, .awaitTx => false
  | .executeAction, .awaitExec => true
  | .sendResponse, .run => true
  | .sendResponse, .awaitTx => true
  | .sendResponse, .awaitExec => false
  | .error _, .run => true
  | .error _, .awaitTx => true
  | .error _, .awaitExec => false

/-- R53: no buffer is longer than its capacity. -/
def BuffersBounded (s : State) : Prop :=
  s.hsBuf.length ≤ s.params.hsCap ∧
  s.fb.length ≤ s.params.fbCap ∧
  s.cmdBuf.length ≤ s.params.cmdCap ∧
  s.resp.length ≤ s.params.respCap ∧
  ∀ msg ci t0 sub, s.tx = .busy msg ci t0 sub → msg.length ≤ s.params.txStage

/-- R54: no deadline exactly when the handshake is done or the block is in Init. -/
def DeadlineRule (s : State) : Prop :=
  s.deadline = none ↔ (s.hsDone = true ∨ s.st = .init)

/-- R55, its five clauses. -/
def ControlDataRule (s : State) : Prop :=
  (s.st ≠ .waitForMessage → s.st ≠ .parseCommand → s.fb = []) ∧
  (s.hsDone = false → s.fb = []) ∧
  (s.cmd ≠ none ↔ s.st = .executeAction) ∧
  (s.fr ≠ none ↔ s.st = .parseCommand) ∧
  (s.st = .parseCommand → ∀ f, s.fr = some f → f.consumed = s.fb.length)

/-- The invariant: R32, R53, R54, R55 and the clauses that make them inductive. -/
structure BlockInv (s : State) : Prop where
  params : s.params.Wf
  legal : legalPair s.st s.ph = true
  bounded : BuffersBounded s
  deadline : DeadlineRule s
  data : ControlDataRule s
  /-- The handshake stands in the message path. -/
  handshake :
    (s.st = .init → s.hsDone = false) ∧
    (s.st = .waitForHandshake → (s.hsDone = true ↔ s.ph = .awaitTx)) ∧
    (s.st = .waitForMessage ∨ s.st = .parseCommand ∨ s.st = .executeAction ∨ s.st = .sendResponse →
      s.hsDone = true)
  /-- The engine holds a message exactly while the control logic waits for it (R251). -/
  engine : s.tx ≠ .idle ↔ s.ph = .awaitTx
  /-- A busy engine is at an existing chunk, and its first attempt is not in the future (R256). -/
  chunk :
    ∀ msg ci t0 sub, s.tx = .busy msg ci t0 sub → ci < nch s.params.maxPacket msg ∧ t0 ≤ s.now
  /-- A decoded frame is the frame that `decode(fb)` gives (R42). -/
  frame : ∀ f, s.fr = some f → decodeFrame s.fb = .frame f
  /-- In WaitForMessage a complete frame is the whole buffer (R317). -/
  whole : s.st = .waitForMessage → ∀ f, decodeFrame s.fb = .frame f → f.consumed = s.fb.length
  /-- `cmd_buf` holds bytes only for a pending command (R43, R44). -/
  operands : s.st ≠ .executeAction → s.cmdBuf = []
  /-- `resp` holds bytes only while they are being sent (R45). -/
  response : (∀ k, s.st ≠ .error k) → s.st ≠ .sendResponse → s.resp = []
  /-- The status signal shows the control state, once one has been entered (R48). -/
  signal : ∀ q, s.status = some q → q = patternOf s.params.patternOf s.st

/-- The states a run reaches: from power-on with any well-formed parameters, any time and any moves of the
environment (the handler's completions keep its contract: fetch refuses others, 45_message_pipeline.md R333). -/
inductive Reachable : State → Prop
  | powerOn (p : Params) (now : Tick) (script : List Move) (h : p.Wf) : Reachable (State.powerOn p now script)
  | step {s t : State} (h : Reachable s) (hs : Sys2Proof.Machine.step s = .next t) : Reachable t

/-- The bytes handed to the transport in a transcript, in order (30_encoding.md R118). -/
def sentBytes : List TraceItem → Bytes
  | [] => []
  | .txChunk c :: ts => c ++ sentBytes ts
  | .accepted _ :: ts => sentBytes ts
  | .execReq _ _ :: ts => sentBytes ts
  | .statusWrite _ :: ts => sentBytes ts

/-- The requests issued in a transcript, in order (R118). -/
def issued : List TraceItem → List (CommandOwned × Bytes)
  | [] => []
  | .execReq c q :: ts => (c, q) :: issued ts
  | .accepted _ :: ts => issued ts
  | .txChunk _ :: ts => issued ts
  | .statusWrite _ :: ts => issued ts

end Sys2Proof.Safety
end

