-- ==== Sys2Proof/Certificates/Slice0/Obligations.lean ====
section
/-! DEFINITION. The statements for the provers. A statement about one instruction gives the whole next state as a
record update, so it says the instruction's effect, that it completes, and its frame: every field not named keeps its
value, among them every byte of the buffers not named. -/

open Sys2Proof Sys2Proof.Machine Sys2Proof.Safety

/-! ## Encodings -/

/-- No bit of an encoding is dropped (30_encoding.md sections 4 and 8): for every well-formed instruction. -/
def Obligations.DecodeOfEncodeIsTheInstruction : Prop :=
  ∀ (p : Params) (i : Instr), i.wf p = true → decode (encode i) = .ok i

/-- One word of each format, written out from R108 to R119. -/
def Obligations.WrittenWordsDecode : Prop :=
  decode (.command [0x02, 0x01, 0x50, 0x10, 0x04]) = .ok (.i2cRead 0x50 0x10 0x04) ∧
  decode (.event { code := 0b110, x := 0b01 }) = .ok .txResultFull ∧
  decode (.internal 0b10101 .needMoreData) = .ok .responseSent ∧
  decode (.transmit 0b01) = .ok .txAttempt

/-- R111, R213, R217, R218, R219: every selector outside the dictionary is Unknown whatever follows it, and a payload
with no complete selector is BadOperands. -/
def Obligations.SelectorIsCheckedBeforeOperands : Prop :=
  (∀ (m o : Byte) (ops : Bytes), ¬ supported m o →
    cmdDecode (m :: o :: ops) = .error (.unknown m o) ∧
    ∀ cap, parsePayload cap (m :: o :: ops) = .error .unknownCommand) ∧
  (∀ P : Bytes, P.length < 2 → cmdDecode P = .error .badOperands)

/-- The operand layouts and minimum lengths, and what `parse` gives: the first failing check of the decoder, then of
the owned copy (42_command_codec.md sections 2 and 3; the spec's own choices D10, D12, D13, D14, D33). -/
def Obligations.OperandsAndParseOutcome : Prop :=
  (∀ q : Bytes, cmdDecode (0x01 :: 0x02 :: q) = .ok (.echoWrite q)) ∧
  (∀ (a r l : Byte) (x : Bytes), cmdDecode (0x02 :: 0x01 :: a :: r :: l :: x) = .ok (.i2cRead a r l)) ∧
  (∀ ops : Bytes, ops.length < 3 → cmdDecode (0x02 :: 0x01 :: ops) = .error .badOperands) ∧
  (∀ (a r : Byte) (q : Bytes), cmdDecode (0x02 :: 0x02 :: a :: r :: q) = .ok (.i2cWrite a r q)) ∧
  (∀ ops : Bytes, ops.length < 2 → cmdDecode (0x02 :: 0x02 :: ops) = .error .badOperands) ∧
  (∀ (cap : Nat) (P : Bytes), parsePayload cap P =
    match cmdDecode P with
    | .ok (.echoWrite q) => if q.length ≤ cap then .ok (.echoWrite, q) else .error .bufferProcessFailed
    | .ok (.i2cRead a r l) => .ok (.i2cRead a r l, [])
    | .ok (.i2cWrite a r q) => if q.length ≤ cap then .ok (.i2cWrite a r, q) else .error .bufferProcessFailed
    | .error (.unknown _ _) => .error .unknownCommand
    | .error .badOperands => .error .invalidChecksum)

/-- A decoded command keeps every payload byte, except those 30_encoding.md section 4 says are ignored (after
I2cRead's third operand) or not read (an unknown selector's operands). -/
def Obligations.DecodedCommandKeepsItsBytes : Prop :=
  ∀ (P : Bytes) (i : Instr), decodeCommand P = .ok i →
    ∃ Q x : Bytes, encode i = .command Q ∧ P = Q ++ x ∧
      (x ≠ [] → (∃ a r l, i = .i2cRead a r l) ∨ (∃ m o, i = .unknownCommand m o))

/-- Event words outside the table of 30_encoding.md section 8 are refused by name, and so is every control selector
without a row (the spec's own choice D44). -/
def Obligations.UnlistedWordsAreRefused : Prop :=
  (∀ w : EventWord, w.code = 6 → w.x = 3 → decode (.event w) = .error .badResult) ∧
  (∀ w : EventWord, w.code = 5 → 4 < w.k.toNat → decode (.event w) = .error .badKind) ∧
  (∀ (sel : BitVec 5) (cls : FrameClass),
    (∀ i, encode i ≠ .internal sel cls ∧ encode i ≠ .internal sel .needMoreData) →
      decode (.internal sel cls) = .error .noTransition)

/-! ## Frame codec -/

/-- The length prefix: its round trip, whatever follows, its length by range, and what every prefix means, the shortest
or not: up to four bytes with the continuation bit set and one without give the sum of their 7-bit groups, least
significant first, and the frame of that length once it is buffered (41_framing.md sections 2 and 3, 30_encoding.md
section 3; layout D2). -/
def Obligations.LengthPrefixRoundTrip : Prop :=
  (∀ n : Nat, n < 2 ^ 32 →
    (∀ x : Bytes, varintDecode (varintEncode n ++ x) = .len n (plen n)) ∧
    plen n =
      if n < 2 ^ 7 then 1 else if n < 2 ^ 14 then 2 else if n < 2 ^ 21 then 3 else if n < 2 ^ 28 then 4 else 5) ∧
  (∀ (cs : Bytes) (b : Byte) (x : Bytes) (L : Nat), cs.length ≤ 4 → (∀ c ∈ cs, 128 ≤ c.toNat) → b.toNat < 128 →
    (cs.length = 4 → b.toNat < 16) →
    L = (cs ++ [b]).foldr (fun c more => c.toNat % 128 + 128 * more) 0 →
    varintDecode (cs ++ b :: x) = .len L (cs.length + 1) ∧
    decodeFrame (cs ++ b :: x) =
      if x.length < L then .needMoreData else .frame ⟨cs.length + 1, L, cs.length + 1 + L⟩)

/-- The prefix laws (41_framing.md section 3, the spec's own derivation). -/
def Obligations.DecodeIsStableUnderMoreBytes : Prop :=
  ∀ s x : Bytes,
    (∀ f, decodeFrame s = .frame f → decodeFrame (s ++ x) = .frame f) ∧
    (decodeFrame s = .malformed → decodeFrame (s ++ x) = .malformed) ∧
    (decodeFrame (s ++ x) = .needMoreData → decodeFrame s = .needMoreData)

/-- A decoded frame lies inside the buffer and depends on no byte after it (41_framing.md section 3, the
spec's own derivation). -/
def Obligations.DecodeReadsOnlyTheFrame : Prop :=
  ∀ (s : Bytes) (f : FrameDesc), decodeFrame s = .frame f →
    f.off + f.plen = f.consumed ∧ f.consumed ≤ s.length ∧ 1 ≤ f.off ∧ f.off ≤ 5 ∧
    decodeFrame (s.take f.consumed) = .frame f

/-- The one way to Malformed (41_framing.md section 3, the spec's own derivation): a fifth prefix byte with one of bits 7:4 set. -/
def Obligations.MalformedIsTheFifthPrefixByte : Prop :=
  ∀ s : Bytes, decodeFrame s = .malformed ↔
    ∃ (b0 b1 b2 b3 b4 : Byte) (x : Bytes), s = b0 :: b1 :: b2 :: b3 :: b4 :: x ∧
      128 ≤ b0.toNat ∧ 128 ≤ b1.toNat ∧ 128 ≤ b2.toNat ∧ 128 ≤ b3.toNat ∧ 16 ≤ b4.toNat

/-- The round-trip law of frames (41_framing.md section 4, the spec's own derivation; layout D2): decode of encode is the payload, with what follows left
over. -/
def Obligations.FrameRoundTrip : Prop :=
  ∀ (cap : Nat) (P F x : Bytes), encodeFrame cap P = some F →
    decodeFrame (F ++ x) = .frame ⟨plen P.length, P.length, F.length⟩ ∧
    memRead (F ++ x) (plen P.length) P.length = some P ∧
    compact (F ++ x) F.length = some x

/-- `encode` succeeds exactly up to MAX_TX_PAYLOAD (41_framing.md section 4, the spec's own derivation), and then the frame fits. -/
def Obligations.EncodeSucceedsUpToMaxPayload : Prop :=
  ∀ (cap : Nat) (P : Bytes), 1 ≤ cap →
    ((∃ F, encodeFrame cap P = some F) ↔ P.length ≤ maxTxPayload cap) ∧
    (∀ F, encodeFrame cap P = some F → F = varintEncode P.length ++ P ∧ F.length ≤ cap)

/-! ## Operations -/

/-- `sat_add` (44_handshake.md section 1; the spec's own choice D23). -/
def Obligations.TimeAdditionSaturates : Prop :=
  ∀ a b : Tick, (satAdd a b).toNat = min (a.toNat + b.toNat) (2 ^ 64 - 1)

/-- R253: the number of chunks is the ceiling, and the chunks of a message, in order, are the message. -/
def Obligations.ChunksMakeUpTheMessage : Prop :=
  ∀ (mp : Nat) (m : Bytes), 1 ≤ mp →
    (∀ n, nch mp m ≤ n ↔ m.length ≤ n * mp) ∧
    (List.range (nch mp m)).flatMap (chunk mp m) = m ∧
    (∀ i, i < nch mp m → chunk mp m i = (m.drop (i * mp)).take (min ((i + 1) * mp) m.length - i * mp)) ∧
    (∀ i, i + 1 < nch mp m → (chunk mp m i).length = mp) ∧
    (∀ i, i + 1 = nch mp m → 1 ≤ (chunk mp m i).length ∧ (chunk mp m i).length ≤ mp)

/-- Kind codes and base messages (60_exceptions.md sections 1 and 2; codes are the spec's own choice D21): the code of
each kind as a number, the kind that each code decodes to (5 to 7 are unused), and the base message of each kind, byte by
byte, as the ASCII codes of its characters. -/
def Obligations.ErrorKindsHaveCodesAndNames : Prop :=
  let ascii (text : List Char) : Bytes := text.map fun c => BitVec.ofNat 8 c.toNat
  (∀ k : ErrorKind, k.code.toNat =
    match k with
    | .invalidChecksum => 0
    | .unknownCommand => 1
    | .timeout => 2
    | .executionFailed => 3
    | .bufferProcessFailed => 4) ∧
  (∀ k, ErrorKind.ofCode k.code = some k) ∧
  (∀ c : BitVec 3, 4 < c.toNat → ErrorKind.ofCode c = none) ∧
  errorBase .invalidChecksum =
    ascii (['E', 'R', 'R', ':', ' '] ++ ['I', 'n', 'v', 'a', 'l', 'i', 'd', 'C', 'h', 'e', 'c', 'k', 's', 'u', 'm']) ∧
  errorBase .unknownCommand =
    ascii (['E', 'R', 'R', ':', ' '] ++ ['U', 'n', 'k', 'n', 'o', 'w', 'n', 'C', 'o', 'm', 'm', 'a', 'n', 'd']) ∧
  errorBase .timeout =
    ascii (['E', 'R', 'R', ':', ' '] ++ ['T', 'i', 'm', 'e', 'o', 'u', 't']) ∧
  errorBase .executionFailed =
    ascii (['E', 'R', 'R', ':', ' '] ++ ['E', 'x', 'e', 'c', 'u', 't', 'i', 'o', 'n', 'F', 'a', 'i', 'l', 'e', 'd']) ∧
  errorBase .bufferProcessFailed =
    ascii (['E', 'R', 'R', ':', ' '] ++
      ['B', 'u', 'f', 'f', 'e', 'r', 'P', 'r', 'o', 'c', 'e', 's', 's', 'F', 'a', 'i', 'l', 'e', 'd'])

/-- The error message always encodes, keeps its base whole, and is cut only at its tail (60_exceptions.md sections 2
and 3, 00_scope.md section 4; the spec's own choice D20). -/
def Obligations.ErrorMessageAlwaysEncodes : Prop :=
  ∀ (p : Params) (k : ErrorKind) (resp : Bytes), p.Wf →
    (∃ F, encodeFrame p.txCap (errorMessage p.txCap k resp) = some F) ∧
    errorBase k <+: errorMessage p.txCap k resp ∧
    errorMessage p.txCap k resp <+: errorFull k resp

/-! ## Events -/

/-- R400: Reset in every state; `now` is kept, `status` is written when `st` changes. -/
def Obligations.ResetReturnsEverythingToInit : Prop :=
  ∀ s : State, exec .reset s = .next
    { s with
      st := .init
      ph := .run
      hsDone := false
      deadline := none
      hsBuf := []
      fb := []
      fr := none
      cmd := none
      cmdBuf := []
      resp := []
      tx := .idle
      status := if s.st = .init then s.status else some (pat s .init)
      trace := if s.st = .init then s.trace else s.trace ++ [.statusWrite (pat s .init)] }

/-- A received byte during the handshake (44_handshake.md section 3; the spec's own choices D6, D7, D9): overflow, an
ordinary byte, a wrong line, and the match, which starts the response. -/
def Obligations.HandshakeByte : Prop :=
  ∀ (s : State) (b : Byte), s.st = .waitForHandshake → s.ph = .run →
    (s.hsBuf.length = s.params.hsCap → exec (.rxByte b) s = .next { s with hsBuf := [] }) ∧
    (s.hsBuf.length < s.params.hsCap → b ≠ 0x0A →
      exec (.rxByte b) s = .next { s with hsBuf := s.hsBuf ++ [b] }) ∧
    (s.hsBuf.length < s.params.hsCap → b = 0x0A → s.hsBuf ≠ s.params.handshakePhrase →
      exec (.rxByte b) s = .next { s with hsBuf := [] }) ∧
    (s.hsBuf.length < s.params.hsCap → b = 0x0A → s.hsBuf = s.params.handshakePhrase → s.tx = .idle →
      exec (.rxByte b) s = .next
        { s with
          hsDone := true
          deadline := none
          hsBuf := []
          fb := []
          tx :=
            if s.params.handshakeResponse = [] then .done true
            else .busy s.params.handshakeResponse 0 s.now (.ready true s.now)
          ph := .awaitTx })

/-- A received byte of a message (45_message_pipeline.md section 1; the spec's own choices D4, D8): appended, or with
the buffer full an InvalidChecksum error that discards both. -/
def Obligations.MessageByte : Prop :=
  ∀ (s : State) (b : Byte), s.st = .waitForMessage → s.ph = .run → decodeFrame s.fb = .needMoreData →
    (s.fb.length < s.params.fbCap → exec (.rxByte b) s = .next { s with fb := s.fb ++ [b] }) ∧
    (s.fb.length = s.params.fbCap →
      exec (.rxByte b) s = .next
        { s with
          fb := []
          st := .error .invalidChecksum
          status := some (pat s (.error .invalidChecksum))
          trace := s.trace ++ [.statusWrite (pat s (.error .invalidChecksum))] })

/-- The overflow notice (45_message_pipeline.md section 1; the spec's own choice D25): `fb` is cleared, `hs_buf` kept. -/
def Obligations.OverflowNoticeRaisesInvalidChecksum : Prop :=
  ∀ s : State, s.quiescent = true →
    exec .rxOverflow s = .next
      { s with
        fb := []
        st := .error .invalidChecksum
        status := some (pat s (.error .invalidChecksum))
        trace := s.trace ++ [.statusWrite (pat s (.error .invalidChecksum))] }

/-- The timeout entry (44_handshake.md section 4; the spec's own choices D22, D24): effective with an elapsed deadline
in WaitForHandshake, and no effect otherwise. -/
def Obligations.TimeoutActsOnlyOnAnElapsedDeadline : Prop :=
  ∀ s : State, s.quiescent = true →
    (∀ d, s.st = .waitForHandshake → s.deadline = some d → d ≤ s.now →
      exec .timeout s = .next
        { s with
          hsBuf := []
          fb := []
          hsDone := false
          st := .error .timeout
          status := some (pat s (.error .timeout))
          trace := s.trace ++ [.statusWrite (pat s (.error .timeout))] }) ∧
    (s.st ≠ .waitForHandshake ∨ s.deadline = none ∨ (∃ d, s.deadline = some d ∧ s.now < d) →
      exec .timeout s = .next s)

/-- The handler's completions (45_message_pipeline.md section 3; the spec's own choice D16), and which of them a step
takes from the environment (45_message_pipeline.md section 5; the spec's own choices D16, D17; the script is the model's
choice, log 3, and so is where the restriction stands, log 20): for a pending EchoWrite the prefix and the payload, or
BufferProcessFailed where they do not fit, and no other; for the I2C commands any completion. -/
def Obligations.HandlerCompletion : Prop :=
  (∀ (s : State) (r : Bytes), s.st = .executeAction → s.ph = .awaitExec → r.length ≤ s.params.respCap →
    exec (.execOk r) s = .next
      { s with
        resp := r
        cmd := none
        cmdBuf := []
        st := .sendResponse
        ph := .run
        status := some (pat s .sendResponse)
        trace := s.trace ++ [.statusWrite (pat s .sendResponse)] } ∧
    ∀ k, exec (.execErr k r) s = .next
      { s with
        resp := r
        cmd := none
        cmdBuf := []
        st := .error k
        ph := .run
        status := some (pat s (.error k))
        trace := s.trace ++ [.statusWrite (pat s (.error k))] }) ∧
  (∀ (s : State) (w : EventWord) (rest : List Move) (i : Instr), s.params.Wf → s.st = .executeAction →
    s.ph = .awaitExec → s.script = .now w :: rest → decode (.event w) = .ok i →
    ((∃ r, i = .execOk r) ∨ ∃ k r, i = .execErr k r) →
    (s.cmd = some .echoWrite →
      let answer : Instr :=
        if s.params.echoPrefix.length + s.cmdBuf.length ≤ s.params.respCap then .execOk (s.params.echoPrefix ++ s.cmdBuf)
        else .execErr .bufferProcessFailed []
      (i = answer → step s = exec i { s with script := rest, trace := s.trace ++ [.accepted i] }) ∧
      (i ≠ answer → step s = .refused .handlerContract)) ∧
    ((∃ a r l, s.cmd = some (.i2cRead a r l)) ∨ (∃ a r, s.cmd = some (.i2cWrite a r)) →
      step s = exec i { s with script := rest, trace := s.trace ++ [.accepted i] }))

/-- R255, R257: the last chunk's Ok finishes the message, any other moves to the next chunk; an error fails the
message at once. -/
def Obligations.TransportOkAndErr : Prop :=
  ∀ (s : State) (msg : Bytes) (ci : Nat) (t0 : Tick), s.tx = .busy msg ci t0 .awaitResult →
    exec .txResultOk s = .next
      { s with
        tx :=
          if ci + 1 = nch s.params.maxPacket msg then .done true
          else .busy msg (ci + 1) s.now (.ready true s.now) } ∧
    exec .txResultErr s = .next { s with tx := .done false }

/-- The retry rule (43_write_retry.md section 3; the spec's own choice D27), with the first attempt not in the future
(an invariant, see StepKeepsTheInvariant). -/
def Obligations.TransportFull : Prop :=
  ∀ (s : State) (msg : Bytes) (ci : Nat) (t0 : Tick), s.tx = .busy msg ci t0 .awaitResult → t0 ≤ s.now →
    exec .txResultFull s = .next
      { s with
        tx :=
          if s.params.retryDeadline ≤ s.now - t0 then .done false
          else .busy msg ci t0 (.ready false (satAdd s.now s.params.retryInterval)) }

/-- The clock (40_machine_step.md section 4; the spec's own choice D43; the refusal is the model's form, log 5). -/
def Obligations.TimeOnlyMovesNow : Prop :=
  ∀ (s : State) (u : Tick),
    (s.now ≤ u → exec (.time u) s = .next { s with now := u }) ∧
    (u < s.now → exec (.time u) s = .refused .notPresentable)

/-- Events outside their acceptance conditions have no step (40_machine_step.md section 4, 30_encoding.md section 8;
the spec's own choices D5, D41, D42; the refusals are the model's form, log 5). -/
def Obligations.EventsOutsideTheirConditionsAreRefused : Prop :=
  ∀ s : State,
    (s.quiescent = false →
      (∀ b, exec (.rxByte b) s = .refused .notPresentable) ∧
      exec .rxOverflow s = .refused .notPresentable ∧
      exec .timeout s = .refused .notPresentable) ∧
    (¬ (s.st = .executeAction ∧ s.ph = .awaitExec) →
      ∀ r, exec (.execOk r) s = .refused .notPresentable ∧
        ∀ k, exec (.execErr k r) s = .refused .notPresentable) ∧
    (s.st = .executeAction → s.ph = .awaitExec →
      ∀ r, s.params.respCap < r.length →
        exec (.execOk r) s = .refused .operandRefused ∧
        ∀ k, exec (.execErr k r) s = .refused .operandRefused) ∧
    ((∀ msg ci t0, s.tx ≠ .busy msg ci t0 .awaitResult) →
      exec .txResultOk s = .refused .notPresentable ∧
      exec .txResultFull s = .refused .notPresentable ∧
      exec .txResultErr s = .refused .notPresentable)

/-! ## Internal transitions -/

/-- R281. -/
def Obligations.InitArmsTheDeadline : Prop :=
  ∀ s : State, s.st = .init → s.ph = .run →
    exec .init s = .next
      { s with
        deadline := some (satAdd s.now s.params.hsTimeout)
        st := .waitForHandshake
        status := some (pat s .waitForHandshake)
        trace := s.trace ++ [.statusWrite (pat s .waitForHandshake)] }

/-- The end of the handshake response and of a response (44_handshake.md section 3, 45_message_pipeline.md section 4;
the spec's own choices D19, D39); a failed transmission counts like a sent one. -/
def Obligations.FinishedTransmissionEntersWaitForMessage : Prop :=
  ∀ (s : State) (ok : Bool), s.ph = .awaitTx → s.tx = .done ok →
    (s.st = .waitForHandshake →
      exec .handshakeResponseDone s = .next
        { s with
          tx := .idle
          st := .waitForMessage
          ph := .run
          status := some (pat s .waitForMessage)
          trace := s.trace ++ [.statusWrite (pat s .waitForMessage)] }) ∧
    (s.st = .sendResponse →
      exec .responseSent s = .next
        { s with
          tx := .idle
          resp := []
          st := .waitForMessage
          ph := .run
          status := some (pat s .waitForMessage)
          trace := s.trace ++ [.statusWrite (pat s .waitForMessage)] })

/-- R313, R314: a decoded frame is described in `fr` and stays buffered; malformed data is discarded whole. -/
def Obligations.FrameReadyAndMalformed : Prop :=
  ∀ s : State, s.st = .waitForMessage → s.ph = .run →
    (∀ f, decodeFrame s.fb = .frame f →
      exec .frameReady s = .next
        { s with
          fr := some f
          st := .parseCommand
          status := some (pat s .parseCommand)
          trace := s.trace ++ [.statusWrite (pat s .parseCommand)] }) ∧
    (decodeFrame s.fb = .malformed →
      exec .frameMalformed s = .next
        { s with
          fb := []
          st := .error .invalidChecksum
          status := some (pat s (.error .invalidChecksum))
          trace := s.trace ++ [.statusWrite (pat s (.error .invalidChecksum))] })

/-- No step is taken for NeedMoreData: the block is quiescent with nothing enabled, and the next byte continues the frame
(45_message_pipeline.md section 1). That a step with no move to make is refused by name is the model's choice (the script,
log 3; the refusal, log 5). -/
def Obligations.NeedMoreDataTakesNoStep : Prop :=
  ∀ s : State, s.st = .waitForMessage → s.ph = .run → decodeFrame s.fb = .needMoreData →
    s.quiescent = true ∧ s.controlTransition = none ∧
    (s.tx = .idle → s.internalTransition = none ∧
      (s.params.Wf → s.script = [] → step s = .refused .noInput)) ∧
    (∀ b, s.fb.length < s.params.fbCap → exec (.rxByte b) s = .next { s with fb := s.fb ++ [b] })

/-- ParseCommand (45_message_pipeline.md section 2; the spec's own choices D14, D15): the payload is parsed, the frame
leaves `fb` on every outcome, and the owned command or the mapped error follows. -/
def Obligations.ParseCommandRunsTheParse : Prop :=
  ∀ (s : State) (f : FrameDesc) (P : Bytes), s.st = .parseCommand → s.ph = .run → s.fr = some f →
    memRead s.fb f.off f.plen = some P → f.consumed ≤ s.fb.length →
    (∀ c buf, parsePayload s.params.cmdCap P = .ok (c, buf) →
      exec .parseCommand s = .next
        { s with
          cmdBuf := buf
          fb := s.fb.drop f.consumed
          fr := none
          cmd := some c
          st := .executeAction
          status := some (pat s .executeAction)
          trace := s.trace ++ [.statusWrite (pat s .executeAction)] }) ∧
    (∀ k, parsePayload s.params.cmdCap P = .error k →
      exec .parseCommand s = .next
        { s with
          fb := s.fb.drop f.consumed
          fr := none
          st := .error k
          status := some (pat s (.error k))
          trace := s.trace ++ [.statusWrite (pat s (.error k))] })

/-- The three supported commands and the row of every other selector, each run on a frame in ParseCommand
(45_message_pipeline.md section 2, 42_command_codec.md sections 2 and 3). -/
def Obligations.CommandsBecomeOwnedOrRaise : Prop :=
  ∀ (s : State) (f : FrameDesc), s.st = .parseCommand → s.ph = .run → s.fr = some f →
    f.consumed ≤ s.fb.length →
    let owned (c : CommandOwned) (buf : Bytes) : State :=
      { s with
        cmdBuf := buf
        fb := s.fb.drop f.consumed
        fr := none
        cmd := some c
        st := .executeAction
        status := some (pat s .executeAction)
        trace := s.trace ++ [.statusWrite (pat s .executeAction)] }
    let raised (k : ErrorKind) : State :=
      { s with
        fb := s.fb.drop f.consumed
        fr := none
        st := .error k
        status := some (pat s (.error k))
        trace := s.trace ++ [.statusWrite (pat s (.error k))] }
    (∀ q : Bytes, q.length ≤ s.params.cmdCap → exec (.echoWrite q) s = .next (owned .echoWrite q)) ∧
    (∀ q : Bytes, s.params.cmdCap < q.length → exec (.echoWrite q) s = .next (raised .bufferProcessFailed)) ∧
    (∀ a r l : Byte, exec (.i2cRead a r l) s = .next (owned (.i2cRead a r l) [])) ∧
    (∀ (a r : Byte) (q : Bytes), q.length ≤ s.params.cmdCap →
      exec (.i2cWrite a r q) s = .next (owned (.i2cWrite a r) q)) ∧
    (∀ (a r : Byte) (q : Bytes), s.params.cmdCap < q.length →
      exec (.i2cWrite a r q) s = .next (raised .bufferProcessFailed)) ∧
    (∀ m o : Byte, exec (.unknownCommand m o) s = .next (raised .unknownCommand))

/-- ExecuteAction start (45_message_pipeline.md section 3; the spec's own choice D16): the owned command and `cmd_buf`
are handed over, and nothing of `fb` is. -/
def Obligations.ExecuteActionIssuesTheOwnedCommand : Prop :=
  ∀ (s : State) (c : CommandOwned), s.st = .executeAction → s.ph = .run → s.cmd = some c →
    exec .executeActionStart s = .next
      { s with resp := [], ph := .awaitExec, trace := s.trace ++ [.execReq c s.cmdBuf] }

/-- SendResponse start (45_message_pipeline.md section 4; the spec's own choice D18). -/
def Obligations.SendResponseFramesTheResponse : Prop :=
  ∀ s : State, s.st = .sendResponse → s.ph = .run →
    (∀ F, encodeFrame s.params.txCap s.resp = some F → s.tx = .idle →
      exec .sendResponseStart s = .next
        { s with tx := .busy F 0 s.now (.ready true s.now), ph := .awaitTx }) ∧
    (encodeFrame s.params.txCap s.resp = none →
      exec .sendResponseStart s = .next
        { s with
          st := .error .bufferProcessFailed
          status := some (pat s (.error .bufferProcessFailed))
          trace := s.trace ++ [.statusWrite (pat s (.error .bufferProcessFailed))] })

/-- Error action (60_exceptions.md sections 2 and 3; the spec's own choice D20): in every Error state of a block with
well-formed parameters, with the engine idle. -/
def Obligations.ErrorActionSendsTheMessage : Prop :=
  ∀ (s : State) (k : ErrorKind), s.params.Wf → s.st = .error k → s.ph = .run → s.tx = .idle →
    exec .errorAction s = .next
      { s with
        tx :=
          .busy
            (varintEncode (errorMessage s.params.txCap k s.resp).length ++ errorMessage s.params.txCap k s.resp)
            0 s.now (.ready true s.now)
        ph := .awaitTx }

/-- Error resolution (60_exceptions.md section 3; the spec's own choice D24). -/
def Obligations.ErrorResolvesForward : Prop :=
  ∀ (s : State) (k : ErrorKind) (ok : Bool), s.st = .error k → s.ph = .awaitTx → s.tx = .done ok →
    (s.hsDone = true →
      exec .errorResolve s = .next
        { s with
          tx := .idle
          resp := []
          cmd := none
          cmdBuf := []
          st := .waitForMessage
          ph := .run
          status := some (pat s .waitForMessage)
          trace := s.trace ++ [.statusWrite (pat s .waitForMessage)] }) ∧
    (s.hsDone = false →
      exec .errorResolve s = .next
        { s with
          tx := .idle
          resp := []
          cmd := none
          cmdBuf := []
          deadline := some (satAdd s.now s.params.hsTimeout)
          st := .waitForHandshake
          ph := .run
          status := some (pat s .waitForHandshake)
          trace := s.trace ++ [.statusWrite (pat s .waitForHandshake)] })

/-- The attempt (43_write_retry.md section 3; the spec's own choice D27): one chunk out, `t0` set on a chunk's first
attempt only. -/
def Obligations.AttemptHandsOverOneChunk : Prop :=
  ∀ (s : State) (msg : Bytes) (ci : Nat) (t0 tn : Tick) (first : Bool),
    s.tx = .busy msg ci t0 (.ready first tn) → tn ≤ s.now →
    exec .txAttempt s = .next
      { s with
        tx := .busy msg ci (if first = true then s.now else t0) .awaitResult
        trace := s.trace ++ [.txChunk (chunk s.params.maxPacket msg ci)] }

/-- A transition whose control pair, data or engine state does not enable it is refused (40_machine_step.md section
3, 43_write_retry.md section 3; the refusal is the model's form, log 5). The rows of commands are enabled where ParseCommand
is: a command as an instruction is the model's reading, log 12. -/
def Obligations.DisabledTransitionsAreRefused : Prop :=
  ∀ s : State,
    (¬ (s.st = .init ∧ s.ph = .run) → exec .init s = .refused .notEnabled) ∧
    (¬ (s.st = .waitForHandshake ∧ s.ph = .awaitTx ∧ ∃ ok, s.tx = .done ok) →
      exec .handshakeResponseDone s = .refused .notEnabled) ∧
    (¬ (s.st = .waitForMessage ∧ s.ph = .run ∧ ∃ f, decodeFrame s.fb = .frame f) →
      exec .frameReady s = .refused .notEnabled) ∧
    (¬ (s.st = .waitForMessage ∧ s.ph = .run ∧ decodeFrame s.fb = .malformed) →
      exec .frameMalformed s = .refused .notEnabled) ∧
    (¬ (s.st = .parseCommand ∧ s.ph = .run) →
      exec .parseCommand s = .refused .notEnabled ∧
      (∀ q, exec (.echoWrite q) s = .refused .notEnabled) ∧
      (∀ a r l, exec (.i2cRead a r l) s = .refused .notEnabled) ∧
      (∀ a r q, exec (.i2cWrite a r q) s = .refused .notEnabled) ∧
      (∀ m o, exec (.unknownCommand m o) s = .refused .notEnabled)) ∧
    (¬ (s.st = .executeAction ∧ s.ph = .run) → exec .executeActionStart s = .refused .notEnabled) ∧
    (¬ (s.st = .sendResponse ∧ s.ph = .run) → exec .sendResponseStart s = .refused .notEnabled) ∧
    (¬ (s.st = .sendResponse ∧ s.ph = .awaitTx ∧ ∃ ok, s.tx = .done ok) →
      exec .responseSent s = .refused .notEnabled) ∧
    (¬ ((∃ k, s.st = .error k) ∧ s.ph = .run) → exec .errorAction s = .refused .notEnabled) ∧
    (¬ ((∃ k, s.st = .error k) ∧ s.ph = .awaitTx ∧ ∃ ok, s.tx = .done ok) →
      exec .errorResolve s = .refused .notEnabled) ∧
    ((∀ msg ci t0 first tn, s.tx = .busy msg ci t0 (.ready first tn) → s.now < tn) →
      exec .txAttempt s = .refused .notEnabled)

/-- Where a rule's own precondition does not hold the machine stops by name (the model's choice, log 7; no reachable
state does so, see InvariantStatesNeverFault). -/
def Obligations.BrokenPreconditionsStopByName : Prop :=
  ∀ s : State,
    (s.st = .parseCommand → s.ph = .run →
      (s.fr = none →
        exec .parseCommand s = .fault .noFrame ∧
        (∀ q, exec (.echoWrite q) s = .fault .noFrame) ∧
        (∀ a r l, exec (.i2cRead a r l) s = .fault .noFrame) ∧
        (∀ a r q, exec (.i2cWrite a r q) s = .fault .noFrame) ∧
        (∀ m o, exec (.unknownCommand m o) s = .fault .noFrame)) ∧
      (∀ f, s.fr = some f → s.fb.length < f.off + f.plen → exec .parseCommand s = .fault .memReadRange) ∧
      (∀ f, s.fr = some f → s.fb.length < f.consumed →
        (f.off + f.plen ≤ s.fb.length → exec .parseCommand s = .fault .compactRange) ∧
        (∀ q, exec (.echoWrite q) s = .fault .compactRange) ∧
        (∀ a r l, exec (.i2cRead a r l) s = .fault .compactRange) ∧
        (∀ a r q, exec (.i2cWrite a r q) s = .fault .compactRange) ∧
        (∀ m o, exec (.unknownCommand m o) s = .fault .compactRange))) ∧
    (s.st = .executeAction → s.ph = .run → s.cmd = none → exec .executeActionStart s = .fault .noCommand) ∧
    (s.tx ≠ .idle → s.ph = .run →
      (s.st = .waitForHandshake → s.hsBuf = s.params.handshakePhrase → s.hsBuf.length < s.params.hsCap →
        exec (.rxByte 0x0A) s = .fault .emitWhileBusy) ∧
      (∀ F, s.st = .sendResponse → encodeFrame s.params.txCap s.resp = some F →
        exec .sendResponseStart s = .fault .emitWhileBusy) ∧
      (∀ k F, s.st = .error k → encodeFrame s.params.txCap (errorMessage s.params.txCap k s.resp) = some F →
        exec .errorAction s = .fault .emitWhileBusy)) ∧
    (∀ k, s.st = .error k → s.ph = .run →
      encodeFrame s.params.txCap (errorMessage s.params.txCap k s.resp) = none →
      exec .errorAction s = .fault .errorMessageTooLong)

/-! ## The whole machine -/

/-- A step runs the decoded instruction: an event presented now, or held back until no internal transition is enabled,
runs in the state that drops its move and records it, if it is no completion outside the handler's contract (log 20; what
the contract is, HandlerCompletion says); an internal transition runs in the state with its move dropped, or as it is when
no move asks for it. With no instruction to run the step refuses by name (40_machine_step.md sections 2 to 4, 00_scope.md
section 4; the script is the model's choice, log 3, and the refusals its form, log 5). -/
def Obligations.StepRunsTheDecodedInstruction : Prop :=
  ∀ (s : State) (w : EventWord) (rest : List Move) (i : Instr) (e : DecodeError),
    (¬ s.params.Wf → step s = .refused .badParameters) ∧
    (s.params.Wf →
      (s.script = .now w :: rest ∨ (s.script = .whenIdle w :: rest ∧ s.internalTransition = none) →
        (decode (.event w) = .ok i → s.keepsContract i = true →
          step s = exec i { s with script := rest, trace := s.trace ++ [.accepted i] }) ∧
        (decode (.event w) = .ok i → s.keepsContract i = false → step s = .refused .handlerContract) ∧
        (decode (.event w) = .error e → step s = .refused (.badEvent e))) ∧
      (s.script = .whenIdle w :: rest → s.internalTransition = some i → step s = exec i s) ∧
      (s.script = .internal :: rest → s.internalTransition = some i →
        step s = exec i { s with script := rest }) ∧
      (s.script = [] → s.internalTransition = some i → step s = exec i s) ∧
      (s.script = .internal :: rest → s.internalTransition = none → step s = .refused .noTransition) ∧
      (s.script = [] → s.internalTransition = none → step s = .refused .noInput)) ∧
    (s.keepsContract i = false →
      s.st = .executeAction ∧ s.ph = .awaitExec ∧ s.cmd = some .echoWrite ∧
        ((∃ r, i = .execOk r) ∨ ∃ k r, i = .execErr k r))

/-- A step in ParseCommand runs the row of the command in the frame: ParseCommand on a payload that decodes to the
command row `i` is `i` (45_message_pipeline.md section 2; rows of commands are the model's choice, log 12). -/
def Obligations.ParseCommandRunsTheDecodedCommand : Prop :=
  ∀ (s : State) (f : FrameDesc) (P : Bytes) (i : Instr), s.fr = some f →
    memRead s.fb f.off f.plen = some P → decodeCommand P = .ok i → exec .parseCommand s = exec i s

/-- R154: the control logic's transition is enabled in exactly the table's cases. -/
def Obligations.ControlTransitionTable : Prop :=
  ∀ (s : State) (i : Instr), legalPair s.st s.ph = true →
    (s.controlTransition = some i ↔
      (s.st = .init ∧ s.ph = .run ∧ i = .init) ∨
      (s.st = .waitForHandshake ∧ s.ph = .awaitTx ∧ (∃ ok, s.tx = .done ok) ∧ i = .handshakeResponseDone) ∨
      (s.st = .waitForMessage ∧ s.ph = .run ∧ (∃ f, decodeFrame s.fb = .frame f) ∧ i = .frameReady) ∨
      (s.st = .waitForMessage ∧ s.ph = .run ∧ decodeFrame s.fb = .malformed ∧ i = .frameMalformed) ∨
      (s.st = .parseCommand ∧ s.ph = .run ∧ i = .parseCommand) ∨
      (s.st = .executeAction ∧ s.ph = .run ∧ i = .executeActionStart) ∨
      (s.st = .sendResponse ∧ s.ph = .run ∧ i = .sendResponseStart) ∨
      (s.st = .sendResponse ∧ s.ph = .awaitTx ∧ (∃ ok, s.tx = .done ok) ∧ i = .responseSent) ∨
      ((∃ k, s.st = .error k) ∧ s.ph = .run ∧ i = .errorAction) ∨
      ((∃ k, s.st = .error k) ∧ s.ph = .awaitTx ∧ (∃ ok, s.tx = .done ok) ∧ i = .errorResolve))

/-- In every state of the invariant the block has a transition to take, or is quiescent, or waits for the handler, the
transport or the clock (40_machine_step.md sections 3 and 5). -/
def Obligations.BlockWaitsOnlyForTheEnvironment : Prop :=
  ∀ s : State, BlockInv s →
    (s.quiescent = true → s.internalTransition = none) ∧
    (s.internalTransition = none →
      s.quiescent = true ∨ (s.st = .executeAction ∧ s.ph = .awaitExec) ∨
      ∃ msg ci t0 sub, s.ph = .awaitTx ∧ s.tx = .busy msg ci t0 sub ∧
        (sub = .awaitResult ∨ ∃ first tn, sub = .ready first tn ∧ s.now < tn))

/-- The build-time parameters never change (00_scope.md section 4); only an accepted Time event changes `now`, never
backwards, and it changes nothing else (40_machine_step.md section 4; the spec's own choice D43). -/
def Obligations.OnlyTimeMovesTheClock : Prop :=
  ∀ s t : State, step s = .next t →
    t.params = s.params ∧
    s.now ≤ t.now ∧
    (t.now ≠ s.now → t = { s with now := t.now, script := t.script, trace := s.trace ++ [.accepted (.time t.now)] })

/-- `status` is written by exactly the steps that change `st`, and the transcript records the write
(40_machine_step.md section 4, 10_state.md section 5; the spec's own choice D28). -/
def Obligations.StatusFollowsTheControlState : Prop :=
  ∀ s t : State, step s = .next t →
    (t.st = s.st → t.status = s.status) ∧
    (t.st ≠ s.st →
      t.status = some (pat s t.st) ∧ ∃ pre, t.trace = s.trace ++ pre ++ [.statusWrite (pat s t.st)])

/-- `hs_done` changes only in a step that is a handshake match, an effective Timeout or a Reset (10_state.md section 3;
the transcript and the script are the model's, logs 3 and 4): what the step adds to the transcript is that event and the
status write that goes with it. -/
def Obligations.HandshakeFlagWriters : Prop :=
  ∀ s t : State, step s = .next t → t.hsDone ≠ s.hsDone →
    (t.hsDone = true ∧ s.st = .waitForHandshake ∧ s.ph = .run ∧ s.hsBuf = s.params.handshakePhrase ∧
      s.hsBuf.length < s.params.hsCap ∧ t.trace = s.trace ++ [.accepted (.rxByte 0x0A)]) ∨
    (t.hsDone = false ∧ s.st = .waitForHandshake ∧ s.ph = .run ∧ (∃ d, s.deadline = some d ∧ d ≤ s.now) ∧
      t.st = .error .timeout ∧
      t.trace = s.trace ++ [.accepted .timeout, .statusWrite (pat s (.error .timeout))]) ∨
    (t.hsDone = false ∧ t.st = .init ∧
      t.trace = s.trace ++ .accepted .reset :: if s.st = .init then [] else [.statusWrite (pat s .init)])

/-- No rule of the block reads `status` (10_state.md section 5): two states that differ only in it take the same steps
and differ only in it afterwards. -/
def Obligations.StatusNeverAffectsTheProtocol : Prop :=
  ∀ (s : State) (q : Option Pattern),
    (∀ t, step s = .next t → ∃ q', step { s with status := q } = .next { t with status := q' }) ∧
    (∀ r, step s = .fault r → step { s with status := q } = .fault r) ∧
    (∀ r, step s = .refused r → step { s with status := q } = .refused r)

/-- `STATE`, `PHASE`, `ERR_KIND` and the other outputs of the view (10_state.md sections 1 and 6; the codes are the
spec's own choice D21); the value of `TIME_REMAINING` is TimeRemaining's. -/
def Obligations.ObservationView : Prop :=
  ∀ s : State,
    s.observe.state.toNat =
      (match s.st with
      | .init => 0
      | .waitForHandshake => 1
      | .waitForMessage => 2
      | .parseCommand => 3
      | .executeAction => 4
      | .sendResponse => 5
      | .error _ => 6) ∧
    s.observe.phase.toNat = (match s.ph with | .run => 0 | .awaitTx => 1 | .awaitExec => 2) ∧
    (∀ k, s.st = .error k → s.observe.errKind = k.code) ∧
    ((∀ k, s.st ≠ .error k) → s.observe.errKind = 0) ∧
    (s.observe.rxReady = true ↔
      s.ph = .run ∧
        (s.st = .waitForHandshake ∨ (s.st = .waitForMessage ∧ decodeFrame s.fb = .needMoreData))) ∧
    (s.observe.txBusy = true ↔ s.tx ≠ .idle) ∧
    s.observe.fbLen = s.fb.length ∧ s.observe.hsLen = s.hsBuf.length ∧
    s.observe.cmdLen = s.cmdBuf.length ∧ s.observe.respLen = s.resp.length ∧ s.observe.hsDone = s.hsDone ∧
    s.observe.timeRemaining = s.timeRemaining

/-- R50. -/
def Obligations.TimeRemaining : Prop :=
  ∀ s : State,
    (s.deadline = none → s.timeRemaining = none) ∧
    (∀ d, s.deadline = some d → s.now < d → s.timeRemaining = some (d - s.now)) ∧
    (∀ d, s.deadline = some d → d ≤ s.now → s.timeRemaining = some 0)

/-! ## Invariants -/

/-- The power-on state meets the invariant, for every parameter set that meets its constraints, and so does
State.reset (10_state.md sections 2 and 8, 70_reset_and_hazards.md section 1). -/
def Obligations.InvariantAtPowerOn : Prop :=
  (∀ (p : Params) (now : Tick) (script : List Move), p.Wf → BlockInv (State.powerOn p now script)) ∧ BlockInv State.reset

/-- HEADLINE: every step keeps the invariant (10_state.md sections 1 and 8, the spec's own derivations, with the
clauses of Safety.lean that make them inductive). -/
def Obligations.StepKeepsTheInvariant : Prop :=
  ∀ s t : State, BlockInv s → step s = .next t → BlockInv t

/-- Every reachable state satisfies the legal pairs and the invariants of 10_state.md sections 1 and 8 (the spec's own
derivations), whatever the
parameters and whatever the environment presents. -/
def Obligations.ReachableStatesMeetTheInvariants : Prop :=
  ∀ s : State, Reachable s →
    legalPair s.st s.ph = true ∧ BuffersBounded s ∧ DeadlineRule s ∧ ControlDataRule s

/-- The block never faults, and a step is refused only for what the environment presents or fails to present
(40_machine_step.md section 2). The list of refusals is the model's choice: the rule knows only the event that may not be
presented (notPresentable, operandRefused and badEvent, log 5); handlerContract is the handler's restriction in the model's
form (log 20); noTransition and noInput come from the model's script (logs 3 and 5). -/
def Obligations.InvariantStatesNeverFault : Prop :=
  ∀ s : State, BlockInv s →
    (∀ r, step s ≠ .fault r) ∧
    (∀ r, step s = .refused r →
      r = .notPresentable ∨ r = .operandRefused ∨ r = .handlerContract ∨ (∃ e, r = .badEvent e) ∨ r = .noTransition ∨ r = .noInput)

/-- No command reaches the handler before the handshake (44_handshake.md section 3, 60_exceptions.md section 5). -/
def Obligations.NoCommandBeforeTheHandshake : Prop :=
  ∀ s t : State, BlockInv s → step s = .next t → issued t.trace ≠ issued s.trace →
    s.hsDone = true ∧ ∃ c, s.cmd = some c ∧ issued t.trace = issued s.trace ++ [(c, s.cmdBuf)]

/-! ## Runs -/

/-- The phrase and its delimiter, byte by byte from an empty handshake buffer, complete the handshake, whatever moves
follow (44_handshake.md section 3; the script is the model's choice, log 3). -/
def Obligations.PhraseCompletesTheHandshake : Prop :=
  ∀ (s : State) (rest : List Move), s.params.Wf → s.st = .waitForHandshake → s.ph = .run → s.hsBuf = [] →
    s.tx = .idle → s.script = rxMoves (s.params.handshakePhrase ++ [0x0A]) ++ rest →
    ∃ t : State, Sys2Proof.core.run (s.params.handshakePhrase.length + 1) s = .next t ∧
      t.hsDone = true ∧ t.deadline = none ∧ t.st = .waitForHandshake ∧ t.ph = .awaitTx ∧
      t.tx = startTx s.params.handshakeResponse s.now ∧ t.script = rest

/-- Any other line that fits the buffer is discarded at its delimiter; the deadline stays (44_handshake.md sections 3
and 4; the spec's own choice D6; the script is the model's choice, log 3). -/
def Obligations.WrongLineIsDiscarded : Prop :=
  ∀ (s : State) (line : Bytes) (rest : List Move), s.params.Wf → s.st = .waitForHandshake → s.ph = .run →
    s.hsBuf = [] → s.tx = .idle → (0x0A : Byte) ∉ line → line.length < s.params.hsCap →
    line ≠ s.params.handshakePhrase → s.script = rxMoves (line ++ [0x0A]) ++ rest →
    ∃ t : State, Sys2Proof.core.run (line.length + 1) s = .next t ∧
      t = { s with script := rest, trace := t.trace } ∧
      sentBytes t.trace = sentBytes s.trace

/-- A frame presented to a waiting block, one byte per event, is reassembled, parsed and leaves the buffer empty: the
block is in ExecuteAction with the owned command, or in the Error state that `parse` names (45_message_pipeline.md sections
1 and 2; the layout is the spec's own choice D2; the script is the model's choice, log 3). -/
def Obligations.FrameBytesReachTheParser : Prop :=
  ∀ (s : State) (P : Bytes) (rest : List Move), s.params.Wf → s.st = .waitForMessage → s.ph = .run →
    s.fb = [] → s.tx = .idle → P.length < 2 ^ 32 → plen P.length + P.length ≤ s.params.fbCap →
    s.script = rxMoves (varintEncode P.length ++ P) ++ rest → (rest = [] ∨ ∃ w rest', rest = .whenIdle w :: rest') →
    ∃ t : State, Sys2Proof.core.run (plen P.length + P.length + 2) s = .next t ∧
      t.fb = [] ∧ t.fr = none ∧ t.script = rest ∧ t.ph = .run ∧ t.hsDone = s.hsDone ∧
      (∀ c buf, parsePayload s.params.cmdCap P = .ok (c, buf) →
        t.st = .executeAction ∧ t.cmd = some c ∧ t.cmdBuf = buf) ∧
      (∀ k, parsePayload s.params.cmdCap P = .error k → t.st = .error k ∧ t.cmd = s.cmd ∧ t.cmdBuf = s.cmdBuf)

/-- A started message whose chunks the transport all accepts is sent byte for byte and in order
(43_write_retry.md sections 2 and 3, 20_memory.md section 5; the script is the model's choice, log 3). -/
def Obligations.AcceptedMessageIsSentWhole : Prop :=
  ∀ (s : State) (msg : Bytes) (t0 : Tick) (rest : List Move), s.params.Wf → s.ph = .awaitTx → msg ≠ [] →
    s.tx = .busy msg 0 t0 (.ready true s.now) →
    s.script = List.replicate (nch s.params.maxPacket msg) (.whenIdle { code := 6, x := 0 }) ++ rest →
    ∃ t : State, Sys2Proof.core.run (2 * nch s.params.maxPacket msg) s = .next t ∧
      t = { s with tx := .done true, script := rest, trace := t.trace } ∧
      sentBytes t.trace = sentBytes s.trace ++ msg

/-! ## Host syntax -/

/-- The inverse law (42_command_codec.md section 4; the spec's own choice D29): what the host encodes, the block
decodes to the command the text names, with the same operands. A text is the byte string of its ASCII characters, and any
other byte a character outside ASCII (the model's choice, log 15). -/
def Obligations.HostTextDecodesToItsCommand : Prop :=
  ∀ x P : Bytes, hostEncode x = some P →
    (∃ arg args, tokens x = kwEcho :: arg :: args ∧ cmdDecode P = .ok (.echoWrite (joinTokens (arg :: args)))) ∨
    (∃ a r l va vr vl, tokens x = [kwI2c, kwRead, a, r, l] ∧ num a = some va ∧ num r = some vr ∧
      num l = some vl ∧ cmdDecode P = .ok (.i2cRead va vr vl)) ∨
    (∃ a r d ds va vr vds, tokens x = kwI2c :: kwWrite :: a :: r :: d :: ds ∧ num a = some va ∧ num r = some vr ∧
      nums (d :: ds) = some vds ∧ vds.length = ds.length + 1 ∧ cmdDecode P = .ok (.i2cWrite va vr vds))

/-! ## End to end -/

/-- From a waiting block of the invariant with an empty buffer, a framed EchoWrite with payload `q`, one byte per event, is
answered by exactly one frame: of the echo prefix and `q`, when the response buffer holds them, and of the error message of
BufferProcessFailed otherwise. The handler answers as its contract says and the transport accepts every chunk; the block
issues that one request, hands over exactly the frame and waits for the next message (45_message_pipeline.md section 5 and
40_machine_step.md section 6; the spec's own choices D2, D14, D17; the script is the model's choice, log 3). -/
def Obligations.FramedEchoIsAnsweredByOneFrame : Prop :=
  ∀ (s : State) (q F : Bytes) (w : EventWord) (rest : List Move),
    BlockInv s → s.st = .waitForMessage → s.fb = [] → q.length ≤ s.params.cmdCap → q.length + 2 < 2 ^ 32 →
    plen (q.length + 2) + (q.length + 2) ≤ s.params.fbCap →
    encodeFrame s.params.txCap
        (if (s.params.echoPrefix ++ q).length ≤ s.params.respCap then s.params.echoPrefix ++ q
        else errorMessage s.params.txCap .bufferProcessFailed []) = some F →
    decode (.event w) = .ok
        (if (s.params.echoPrefix ++ q).length ≤ s.params.respCap then .execOk (s.params.echoPrefix ++ q)
        else .execErr .bufferProcessFailed []) →
    s.script =
      rxMoves (varintEncode (q.length + 2) ++ 0x01 :: 0x02 :: q) ++ .whenIdle w ::
        List.replicate (nch s.params.maxPacket F) (.whenIdle { code := 6, x := 0 }) ++ rest →
    (rest = [] ∨ ∃ v rest', rest = .whenIdle v :: rest') →
    ∃ t : State,
      Sys2Proof.core.run (plen (q.length + 2) + (q.length + 2) + 2 * nch s.params.maxPacket F + 6) s = .next t ∧
      t = { s with script := rest, status := some (pat s .waitForMessage), trace := t.trace } ∧
      issued t.trace = issued s.trace ++ [(.echoWrite, q)] ∧
      sentBytes t.trace = sentBytes s.trace ++ F
end

