-- ==== Sys2Proof/Laws/Decode.lean ====
section
/-! SUPPORT. Small facts of the decoder: the selector names its two bytes. -/

namespace Sys2Proof

theorem selector_toNat (m o : Byte) : (selector m o).toNat = m.toNat * 256 + o.toNat := by
  have h := Nat.shiftLeft_add_eq_or_of_lt o.isLt m.toNat
  rw [selector, BitVec.toNat_append, ← h, Nat.shiftLeft_eq]

theorem selector_eq_iff (m o m' o' : Byte) : selector m o = selector m' o' ↔ m = m' ∧ o = o' := by
  constructor
  · intro h
    have h := congrArg BitVec.toNat h
    rw [selector_toNat, selector_toNat] at h
    constructor <;> apply BitVec.eq_of_toNat_eq <;> omega
  · rintro ⟨rfl, rfl⟩; rfl

theorem selector_eq_echoWrite (m o : Byte) : selector m o = 0x0102 ↔ m = 0x01 ∧ o = 0x02 :=
  selector_eq_iff m o 0x01 0x02

theorem selector_eq_i2cRead (m o : Byte) : selector m o = 0x0201 ↔ m = 0x02 ∧ o = 0x01 :=
  selector_eq_iff m o 0x02 0x01

theorem selector_eq_i2cWrite (m o : Byte) : selector m o = 0x0202 ↔ m = 0x02 ∧ o = 0x02 :=
  selector_eq_iff m o 0x02 0x02

@[simp] theorem ErrorKind.ofCode_code (k : ErrorKind) : ErrorKind.ofCode k.code = some k := by cases k <;> rfl

end Sys2Proof
end

