-- ==== Sys2Proof/Laws/State.lean ====
section
/-! SUPPORT. One lemma per field per named update of State, so that no later proof unfolds a record update. -/

namespace Sys2Proof.Machine

@[simp] theorem State.setSt_st (s : State) (x : SystemState) : (s.setSt x).st = x := by
  unfold State.setSt; split <;> simp_all

@[simp] theorem State.setSt_params (s : State) (x : SystemState) : (s.setSt x).params = s.params := by
  unfold State.setSt; split <;> rfl

@[simp] theorem State.setSt_ph (s : State) (x : SystemState) : (s.setSt x).ph = s.ph := by
  unfold State.setSt; split <;> rfl

@[simp] theorem State.setSt_hsDone (s : State) (x : SystemState) : (s.setSt x).hsDone = s.hsDone := by
  unfold State.setSt; split <;> rfl

@[simp] theorem State.setSt_deadline (s : State) (x : SystemState) : (s.setSt x).deadline = s.deadline := by
  unfold State.setSt; split <;> rfl

@[simp] theorem State.setSt_hsBuf (s : State) (x : SystemState) : (s.setSt x).hsBuf = s.hsBuf := by
  unfold State.setSt; split <;> rfl

@[simp] theorem State.setSt_fb (s : State) (x : SystemState) : (s.setSt x).fb = s.fb := by
  unfold State.setSt; split <;> rfl

@[simp] theorem State.setSt_fr (s : State) (x : SystemState) : (s.setSt x).fr = s.fr := by
  unfold State.setSt; split <;> rfl

@[simp] theorem State.setSt_cmd (s : State) (x : SystemState) : (s.setSt x).cmd = s.cmd := by
  unfold State.setSt; split <;> rfl

@[simp] theorem State.setSt_cmdBuf (s : State) (x : SystemState) : (s.setSt x).cmdBuf = s.cmdBuf := by
  unfold State.setSt; split <;> rfl

@[simp] theorem State.setSt_resp (s : State) (x : SystemState) : (s.setSt x).resp = s.resp := by
  unfold State.setSt; split <;> rfl

@[simp] theorem State.setSt_tx (s : State) (x : SystemState) : (s.setSt x).tx = s.tx := by
  unfold State.setSt; split <;> rfl

@[simp] theorem State.setSt_now (s : State) (x : SystemState) : (s.setSt x).now = s.now := by
  unfold State.setSt; split <;> rfl

@[simp] theorem State.setSt_script (s : State) (x : SystemState) : (s.setSt x).script = s.script := by
  unfold State.setSt; split <;> rfl

@[simp] theorem State.setSt_self (s : State) : s.setSt s.st = s := by simp [State.setSt]

theorem State.setSt_of_ne (s : State) (x : SystemState) (h : x ≠ s.st) :
    s.setSt x =
      { s with
        st := x
        status := some (patternOf s.params.patternOf x)
        trace := s.trace ++ [.statusWrite (patternOf s.params.patternOf x)] } := by
  simp [State.setSt, h]

theorem State.setSt_status (s : State) (x : SystemState) :
    (s.setSt x).status = if x = s.st then s.status else some (patternOf s.params.patternOf x) := by
  unfold State.setSt; split <;> rfl

theorem State.setSt_trace (s : State) (x : SystemState) :
    (s.setSt x).trace =
      if x = s.st then s.trace else s.trace ++ [.statusWrite (patternOf s.params.patternOf x)] := by
  unfold State.setSt; split <;> rfl

@[simp] theorem State.armDeadline_params (s : State) : s.armDeadline.params = s.params := rfl

@[simp] theorem State.armDeadline_st (s : State) : s.armDeadline.st = s.st := rfl

@[simp] theorem State.armDeadline_ph (s : State) : s.armDeadline.ph = s.ph := rfl

@[simp] theorem State.armDeadline_hsDone (s : State) : s.armDeadline.hsDone = s.hsDone := rfl

@[simp] theorem State.armDeadline_hsBuf (s : State) : s.armDeadline.hsBuf = s.hsBuf := rfl

@[simp] theorem State.armDeadline_fb (s : State) : s.armDeadline.fb = s.fb := rfl

@[simp] theorem State.armDeadline_fr (s : State) : s.armDeadline.fr = s.fr := rfl

@[simp] theorem State.armDeadline_cmd (s : State) : s.armDeadline.cmd = s.cmd := rfl

@[simp] theorem State.armDeadline_cmdBuf (s : State) : s.armDeadline.cmdBuf = s.cmdBuf := rfl

@[simp] theorem State.armDeadline_resp (s : State) : s.armDeadline.resp = s.resp := rfl

@[simp] theorem State.armDeadline_tx (s : State) : s.armDeadline.tx = s.tx := rfl

@[simp] theorem State.armDeadline_now (s : State) : s.armDeadline.now = s.now := rfl

@[simp] theorem State.armDeadline_status (s : State) : s.armDeadline.status = s.status := rfl

@[simp] theorem State.armDeadline_script (s : State) : s.armDeadline.script = s.script := rfl

@[simp] theorem State.armDeadline_trace (s : State) : s.armDeadline.trace = s.trace := rfl

@[simp] theorem State.armDeadline_deadline (s : State) :
    s.armDeadline.deadline = some (satAdd s.now s.params.hsTimeout) := rfl

@[simp] theorem raise_st (k : ErrorKind) (s : State) : (raise k s).st = .error k := by simp [raise]

@[simp] theorem raise_ph (k : ErrorKind) (s : State) : (raise k s).ph = .run := rfl

@[simp] theorem raise_params (k : ErrorKind) (s : State) : (raise k s).params = s.params := by simp [raise]

@[simp] theorem raise_hsDone (k : ErrorKind) (s : State) : (raise k s).hsDone = s.hsDone := by simp [raise]

@[simp] theorem raise_deadline (k : ErrorKind) (s : State) : (raise k s).deadline = s.deadline := by simp [raise]

@[simp] theorem raise_hsBuf (k : ErrorKind) (s : State) : (raise k s).hsBuf = s.hsBuf := by simp [raise]

@[simp] theorem raise_fb (k : ErrorKind) (s : State) : (raise k s).fb = s.fb := by simp [raise]

@[simp] theorem raise_fr (k : ErrorKind) (s : State) : (raise k s).fr = s.fr := by simp [raise]

@[simp] theorem raise_cmd (k : ErrorKind) (s : State) : (raise k s).cmd = s.cmd := by simp [raise]

@[simp] theorem raise_cmdBuf (k : ErrorKind) (s : State) : (raise k s).cmdBuf = s.cmdBuf := by simp [raise]

@[simp] theorem raise_resp (k : ErrorKind) (s : State) : (raise k s).resp = s.resp := by simp [raise]

@[simp] theorem raise_tx (k : ErrorKind) (s : State) : (raise k s).tx = s.tx := by simp [raise]

@[simp] theorem raise_now (k : ErrorKind) (s : State) : (raise k s).now = s.now := by simp [raise]

@[simp] theorem raise_script (k : ErrorKind) (s : State) : (raise k s).script = s.script := by simp [raise]

theorem raise_of_ne (k : ErrorKind) (s : State) (h : s.st ≠ .error k) :
    raise k s =
      { s with
        st := .error k
        ph := .run
        status := some (patternOf s.params.patternOf (.error k))
        trace := s.trace ++ [.statusWrite (patternOf s.params.patternOf (.error k))] } := by
  simp [raise, State.setSt, Ne.symm h]

end Sys2Proof.Machine
end

