-- ==== Sys2Proof/Laws/Ops.lean ====
section
/-! SUPPORT. For each shared operation, once, everything it can do. -/

namespace Sys2Proof.Machine

/-! ### Buffer primitives: result, failure, capacity (00_scope.md R15) -/

theorem append_eq_some {cap : Nat} {B B' : Bytes} {b : Byte} :
    append cap B b = some B' ↔ B.length < cap ∧ B' = B ++ [b] := by
  unfold append; split <;> simp_all [eq_comm]

theorem append_eq_none {cap : Nat} {B : Bytes} {b : Byte} : append cap B b = none ↔ cap ≤ B.length := by
  unfold append; split <;> simp_all

theorem append_keeps_capacity {cap : Nat} {B B' : Bytes} {b : Byte} (h : append cap B b = some B') :
    B'.length ≤ cap := by
  obtain ⟨h1, rfl⟩ := append_eq_some.1 h; simp; omega

theorem copyInto_eq_some {cap : Nat} {s B : Bytes} : copyInto cap s = some B ↔ s.length ≤ cap ∧ B = s := by
  unfold copyInto; split <;> simp_all [eq_comm]

theorem copyInto_eq_none {cap : Nat} {s : Bytes} : copyInto cap s = none ↔ cap < s.length := by
  unfold copyInto; split <;> simp_all

theorem compact_eq_some {B B' : Bytes} {n : Nat} : compact B n = some B' ↔ n ≤ B.length ∧ B' = B.drop n := by
  unfold compact; split <;> simp_all [eq_comm]

theorem compact_eq_none {B : Bytes} {n : Nat} : compact B n = none ↔ B.length < n := by
  unfold compact; split <;> simp_all

theorem compact_keeps_capacity {cap : Nat} {B B' : Bytes} {n : Nat} (h : compact B n = some B')
    (hB : B.length ≤ cap) : B'.length ≤ cap := by
  obtain ⟨_, rfl⟩ := compact_eq_some.1 h; simp; omega

theorem memRead_eq_some {B P : Bytes} {i n : Nat} :
    memRead B i n = some P ↔ i + n ≤ B.length ∧ P = (B.drop i).take n := by
  unfold memRead; split <;> simp_all [eq_comm]

theorem memRead_eq_none {B : Bytes} {i n : Nat} : memRead B i n = none ↔ B.length < i + n := by
  unfold memRead; split <;> simp_all

/-! ### Emit -/

theorem next_eq_next {a t : State} : (Host.Outcome.next a : Result) = .next t ↔ t = a := by
  rw [Host.Outcome.next.injEq, eq_comm]

theorem emit_eq_next {m : Bytes} {s t : State} :
    emit m s = .next t ↔ s.tx = .idle ∧ t = { s with tx := startTx m s.now, ph := .awaitTx } := by
  unfold emit; split <;> simp_all [eq_comm]

theorem emit_eq_fault {m : Bytes} {s : State} {r : Fault} :
    emit m s = .fault r ↔ s.tx ≠ .idle ∧ r = .emitWhileBusy := by
  unfold emit; split <;> simp_all [eq_comm]

theorem emit_ne_refused (m : Bytes) (s : State) (r : Refusal) : emit m s ≠ .refused r := by
  unfold emit; split <;> simp

@[simp] theorem startTx_nil (now : Tick) : startTx [] now = .done true := rfl

theorem startTx_of_ne_nil {m : Bytes} (h : m ≠ []) (now : Tick) :
    startTx m now = .busy m 0 now (.ready true now) := by
  cases m with
  | nil => exact absurd rfl h
  | cons b bs => rfl

theorem startTx_ne_idle (m : Bytes) (now : Tick) : startTx m now ≠ .idle := by
  cases m <;> simp [startTx]

/-! ### Guards -/

theorem quiescent_iff {s : State} :
    s.quiescent = true ↔
      s.ph = .run ∧ (s.st = .waitForHandshake ∨ (s.st = .waitForMessage ∧ decodeFrame s.fb = .needMoreData)) := by
  simp [State.quiescent]

theorem whenAt_eq_next {st : SystemState} {ph : Phase} {s t : State} {k : Result} :
    whenAt st ph s k = .next t ↔ s.st = st ∧ s.ph = ph ∧ k = .next t := by
  unfold whenAt; split <;> simp_all

theorem whenError_eq_next {ph : Phase} {s t : State} {f : ErrorKind → Result} :
    whenError ph s f = .next t ↔ ∃ k, s.st = .error k ∧ s.ph = ph ∧ f k = .next t := by
  unfold whenError; split <;> [split; skip; skip; skip; skip; skip; skip] <;> simp_all

theorem whenDone_eq_next {s t : State} {k : Result} :
    whenDone s k = .next t ↔ (∃ ok, s.tx = .done ok) ∧ k = .next t := by
  unfold whenDone; split <;> simp_all

theorem acceptResult_eq_next {s t : State} {k : Bytes → Nat → Tick → TxState} :
    acceptResult s k = .next t ↔
      ∃ msg ci t0, s.tx = .busy msg ci t0 .awaitResult ∧ t = { s with tx := k msg ci t0 } := by
  unfold acceptResult; split <;> rename_i h <;> simp [h, eq_comm]

theorem acceptCompletion_eq_next {r : Bytes} {s t : State} {k : State → State} :
    acceptCompletion r s k = .next t ↔
      s.st = .executeAction ∧ s.ph = .awaitExec ∧ r.length ≤ s.params.respCap ∧
        t = k { s with resp := r, cmd := none, cmdBuf := [] } := by
  unfold acceptCompletion; split <;> [split; skip] <;> simp_all [eq_comm]

/-! ### ParseCommand -/

theorem withFrame_eq_next {s t : State} {k : FrameDesc → Result} :
    withFrame s k = .next t ↔ s.st = .parseCommand ∧ s.ph = .run ∧ ∃ f, s.fr = some f ∧ k f = .next t := by
  unfold withFrame; split <;> [split; skip] <;> simp_all

theorem withFrame_at {s : State} {k : FrameDesc → Result} {f : FrameDesc} (h1 : s.st = .parseCommand)
    (h2 : s.ph = .run) (h3 : s.fr = some f) : withFrame s k = k f := by
  simp [withFrame, h1, h2, h3]

theorem finishParse_eq_next {f : FrameDesc} {r : Except ErrorKind (CommandOwned × Bytes)} {s t : State} :
    finishParse f r s = .next t ↔
      f.consumed ≤ s.fb.length ∧
        ((∃ c buf, r = .ok (c, buf) ∧
            t = ({ s with cmdBuf := buf, fb := s.fb.drop f.consumed, fr := none, cmd := some c }.setSt
              .executeAction)) ∨
          ∃ k, r = .error k ∧ t = raise k { s with fb := s.fb.drop f.consumed, fr := none }) := by
  unfold finishParse
  split
  · rename_i h; have := compact_eq_none.1 h; simp; omega
  · rename_i fb' h
    obtain ⟨h1, rfl⟩ := compact_eq_some.1 h
    split <;> simp_all [eq_comm]

theorem toOwned_eq_ok {cap : Nat} {c : Command} {o : CommandOwned} {buf : Bytes} :
    toOwned cap c = .ok (o, buf) ↔
      (∃ q, c = .echoWrite q ∧ q.length ≤ cap ∧ o = .echoWrite ∧ buf = q) ∨
      (∃ a r l, c = .i2cRead a r l ∧ o = .i2cRead a r l ∧ buf = []) ∨
      (∃ a r q, c = .i2cWrite a r q ∧ q.length ≤ cap ∧ o = .i2cWrite a r ∧ buf = q) := by
  cases c with
  | echoWrite q => by_cases h : q.length ≤ cap <;> simp [toOwned, copyInto, h] <;> grind
  | i2cRead a r l => simp [toOwned, eq_comm]
  | i2cWrite a r q => by_cases h : q.length ≤ cap <;> simp [toOwned, copyInto, h] <;> grind

theorem toOwned_keeps_capacity {cap : Nat} {c : Command} {o : CommandOwned} {buf : Bytes}
    (h : toOwned cap c = .ok (o, buf)) : buf.length ≤ cap := by
  obtain ⟨q, -, h, -, rfl⟩ | ⟨a, r, l, -, -, rfl⟩ | ⟨a, r, q, -, h, -, rfl⟩ := toOwned_eq_ok.1 h
  · exact h
  · simp
  · exact h

/-- ParseCommand is `finishParse` with the outcome of `parse` (R320, R223). -/
theorem execParseCommand_eq (s : State) :
    execParseCommand s =
      withFrame s fun f =>
        match memRead s.fb f.off f.plen with
        | none => .fault .memReadRange
        | some P => finishParse f (parsePayload s.params.cmdCap P) s := by
  unfold execParseCommand withFrame
  split
  · rename_i h
    split
    · rename_i f hf
      cases hm : memRead s.fb f.off f.plen with
      | none => simp only [hm]
      | some P =>
        simp only [hm, parsePayload]
        split <;> simp_all [execEchoWrite, execI2cRead, execI2cWrite, execUnknownCommand, withFrame]
    · rfl
  · rfl

/-! ### Error message -/

theorem errorBase_length (k : ErrorKind) :
    (errorBase k).length = match k with
      | .invalidChecksum => 20
      | .unknownCommand => 19
      | .timeout => 12
      | .executionFailed => 20
      | .bufferProcessFailed => 24 := by
  cases k <;> rfl

theorem resolveError_done {s : State} (h : s.hsDone = true) :
    resolveError s =
      { { s with tx := .idle, resp := [], cmd := none, cmdBuf := [] }.setSt .waitForMessage with ph := .run } := by
  simp [resolveError, h]

theorem resolveError_not_done {s : State} (h : s.hsDone = false) :
    resolveError s =
      { { s with tx := .idle, resp := [], cmd := none, cmdBuf := [] }.armDeadline.setSt .waitForHandshake with
        ph := .run } := by
  simp [resolveError, h]

end Sys2Proof.Machine
end

