-- ==== Sys2Proof/Laws/Exec.lean ====
section
/-! SUPPORT. For each meaning, when it answers a next state and which: what later proofs cite instead of unfolding. -/

namespace Sys2Proof.Machine

/-! ### Commands -/

theorem execEchoWrite_eq_next {q : Bytes} {s t : State} :
    execEchoWrite q s = .next t ↔
      s.st = .parseCommand ∧ s.ph = .run ∧ ∃ f, s.fr = some f ∧
        finishParse f (toOwned s.params.cmdCap (.echoWrite q)) s = .next t := withFrame_eq_next

theorem execI2cRead_eq_next {a r l : Byte} {s t : State} :
    execI2cRead a r l s = .next t ↔
      s.st = .parseCommand ∧ s.ph = .run ∧ ∃ f, s.fr = some f ∧
        finishParse f (toOwned s.params.cmdCap (.i2cRead a r l)) s = .next t := withFrame_eq_next

theorem execI2cWrite_eq_next {a r : Byte} {q : Bytes} {s t : State} :
    execI2cWrite a r q s = .next t ↔
      s.st = .parseCommand ∧ s.ph = .run ∧ ∃ f, s.fr = some f ∧
        finishParse f (toOwned s.params.cmdCap (.i2cWrite a r q)) s = .next t := withFrame_eq_next

theorem execUnknownCommand_eq_next {m o : Byte} {s t : State} :
    execUnknownCommand m o s = .next t ↔
      s.st = .parseCommand ∧ s.ph = .run ∧ ∃ f, s.fr = some f ∧
        finishParse f (.error .unknownCommand) s = .next t := withFrame_eq_next

theorem execParseCommand_eq_next {s t : State} :
    execParseCommand s = .next t ↔
      s.st = .parseCommand ∧ s.ph = .run ∧ ∃ f P, s.fr = some f ∧ memRead s.fb f.off f.plen = some P ∧
        finishParse f (parsePayload s.params.cmdCap P) s = .next t := by
  rw [execParseCommand_eq, withFrame_eq_next]
  refine and_congr_right fun _ => and_congr_right fun _ => exists_congr fun f => ?_
  cases memRead s.fb f.off f.plen <;> simp

/-! ### Events -/

theorem handshakeMatch_eq_next {s t : State} :
    handshakeMatch s = .next t ↔
      s.tx = .idle ∧
        t = { s with
          hsDone := true
          deadline := none
          hsBuf := []
          fb := []
          tx := startTx s.params.handshakeResponse s.now
          ph := .awaitTx } := by
  simp [handshakeMatch, emit_eq_next]

theorem rxByteHandshake_eq_next {b : Byte} {s t : State} :
    rxByteHandshake b s = .next t ↔
      (s.params.hsCap ≤ s.hsBuf.length ∧ t = { s with hsBuf := [] }) ∨
      (s.hsBuf.length < s.params.hsCap ∧ b ≠ 0x0A ∧ t = { s with hsBuf := s.hsBuf ++ [b] }) ∨
      (s.hsBuf.length < s.params.hsCap ∧ b = 0x0A ∧ s.hsBuf ≠ s.params.handshakePhrase ∧
        t = { s with hsBuf := [] }) ∨
      (s.hsBuf.length < s.params.hsCap ∧ b = 0x0A ∧ s.hsBuf = s.params.handshakePhrase ∧
        handshakeMatch s = .next t) := by
  unfold rxByteHandshake
  split
  · rename_i h
    have h := append_eq_none.1 h
    simp only [Host.Outcome.next.injEq]; grind
  · rename_i B h
    obtain ⟨h1, rfl⟩ := append_eq_some.1 h
    split
    · simp only [Host.Outcome.next.injEq]; grind
    · rename_i hb
      have hb : b = 0x0A := by simpa using hb
      subst hb
      split
      · rename_i he
        have he : s.hsBuf = s.params.handshakePhrase := by simpa using he
        grind
      · rename_i he
        have he : s.hsBuf ≠ s.params.handshakePhrase := by simpa using he
        simp only [Host.Outcome.next.injEq]; grind

theorem rxByteMessage_eq_next {b : Byte} {s t : State} :
    rxByteMessage b s = .next t ↔
      (s.fb.length < s.params.fbCap ∧ t = { s with fb := s.fb ++ [b] }) ∨
      (s.params.fbCap ≤ s.fb.length ∧ t = raise .invalidChecksum { s with fb := [] }) := by
  unfold rxByteMessage
  split
  · rename_i h; have := append_eq_none.1 h; simp only [Host.Outcome.next.injEq]; grind
  · rename_i B h; obtain ⟨h1, rfl⟩ := append_eq_some.1 h; simp only [Host.Outcome.next.injEq]; grind

theorem execRxByte_eq_next {b : Byte} {s t : State} :
    execRxByte b s = .next t ↔
      s.quiescent = true ∧
        ((s.st = .waitForHandshake ∧ rxByteHandshake b s = .next t) ∨
          (s.st ≠ .waitForHandshake ∧ rxByteMessage b s = .next t)) := by
  unfold execRxByte; split <;> [split; skip] <;> simp_all

theorem execRxOverflow_eq_next {s t : State} :
    execRxOverflow s = .next t ↔ s.quiescent = true ∧ t = raise .invalidChecksum { s with fb := [] } := by
  unfold execRxOverflow; split <;> (simp_all; try exact eq_comm)

theorem execTimeout_eq_next {s t : State} :
    execTimeout s = .next t ↔
      s.quiescent = true ∧
        ((s.st = .waitForHandshake ∧ s.deadlineElapsed = true ∧
            t = raise .timeout { s with hsBuf := [], fb := [], hsDone := false }) ∨
          (¬ (s.st = .waitForHandshake ∧ s.deadlineElapsed = true) ∧ t = s)) := by
  unfold execTimeout
  split
  · split <;> simp only [next_eq_next] <;> grind
  · simp_all

theorem execReset_eq_next {s t : State} :
    execReset s = .next t ↔
      t =
        ({ s with
            ph := .run
            hsDone := false
            deadline := none
            hsBuf := []
            fb := []
            fr := none
            cmd := none
            cmdBuf := []
            resp := []
            tx := .idle }.setSt .init) := by
  exact next_eq_next

theorem execTime_eq_next {u : Tick} {s t : State} :
    execTime u s = .next t ↔ s.now ≤ u ∧ t = { s with now := u } := by
  unfold execTime; split <;> (simp_all; try exact eq_comm)

theorem execExecOk_eq_next {r : Bytes} {s t : State} :
    execExecOk r s = .next t ↔
      s.st = .executeAction ∧ s.ph = .awaitExec ∧ r.length ≤ s.params.respCap ∧
        t = { { s with resp := r, cmd := none, cmdBuf := [] }.setSt .sendResponse with ph := .run } :=
  acceptCompletion_eq_next

theorem execExecErr_eq_next {k : ErrorKind} {r : Bytes} {s t : State} :
    execExecErr k r s = .next t ↔
      s.st = .executeAction ∧ s.ph = .awaitExec ∧ r.length ≤ s.params.respCap ∧
        t = raise k { s with resp := r, cmd := none, cmdBuf := [] } :=
  acceptCompletion_eq_next

/-! ### Transmit engine -/

theorem execTxResultOk_eq_next {s t : State} :
    execTxResultOk s = .next t ↔
      ∃ msg ci t0, s.tx = .busy msg ci t0 .awaitResult ∧
        t = { s with
          tx :=
            if ci + 1 = nch s.params.maxPacket msg then .done true
            else .busy msg (ci + 1) s.now (.ready true s.now) } :=
  acceptResult_eq_next

theorem execTxResultFull_eq_next {s t : State} :
    execTxResultFull s = .next t ↔
      ∃ msg ci t0, s.tx = .busy msg ci t0 .awaitResult ∧
        t = { s with
          tx :=
            if s.params.retryDeadline.toNat ≤ elapsed s.now t0 then .done false
            else .busy msg ci t0 (.ready false (satAdd s.now s.params.retryInterval)) } :=
  acceptResult_eq_next

theorem execTxResultErr_eq_next {s t : State} :
    execTxResultErr s = .next t ↔
      ∃ msg ci t0, s.tx = .busy msg ci t0 .awaitResult ∧ t = { s with tx := .done false } :=
  acceptResult_eq_next

theorem execTxAttempt_eq_next {s t : State} :
    execTxAttempt s = .next t ↔
      ∃ msg ci t0 first tn, s.tx = .busy msg ci t0 (.ready first tn) ∧ tn ≤ s.now ∧
        t = { s with
          tx := .busy msg ci (if first then s.now else t0) .awaitResult
          trace := s.trace ++ [.txChunk (chunk s.params.maxPacket msg ci)] } := by
  unfold execTxAttempt
  split
  · rename_i msg ci t0 first tn h
    split
    · rw [next_eq_next]
      exact ⟨fun e => ⟨_, _, _, _, _, h, ‹_›, e⟩, by rintro ⟨_, _, _, _, _, e, -, rfl⟩; rw [h] at e; cases e; rfl⟩
    · simp_all
  all_goals simp_all

/-! ### Control logic -/

theorem execInit_eq_next {s t : State} :
    execInit s = .next t ↔ s.st = .init ∧ s.ph = .run ∧ t = s.armDeadline.setSt .waitForHandshake := by
  rw [execInit, whenAt_eq_next, next_eq_next]

theorem execHandshakeResponseDone_eq_next {s t : State} :
    execHandshakeResponseDone s = .next t ↔
      s.st = .waitForHandshake ∧ s.ph = .awaitTx ∧ (∃ ok, s.tx = .done ok) ∧
        t = { { s with tx := .idle }.setSt .waitForMessage with ph := .run } := by
  rw [execHandshakeResponseDone, whenAt_eq_next, whenDone_eq_next, next_eq_next]

theorem execFrameReady_eq_next {s t : State} :
    execFrameReady s = .next t ↔
      s.st = .waitForMessage ∧ s.ph = .run ∧
        ∃ f, decodeFrame s.fb = .frame f ∧ t = { s with fr := some f }.setSt .parseCommand := by
  unfold execFrameReady
  rw [whenAt_eq_next]
  refine and_congr_right fun _ => and_congr_right fun _ => ?_
  split <;> (simp_all; try exact eq_comm)

theorem execFrameMalformed_eq_next {s t : State} :
    execFrameMalformed s = .next t ↔
      s.st = .waitForMessage ∧ s.ph = .run ∧ decodeFrame s.fb = .malformed ∧
        t = raise .invalidChecksum { s with fb := [] } := by
  unfold execFrameMalformed
  rw [whenAt_eq_next]
  refine and_congr_right fun _ => and_congr_right fun _ => ?_
  split <;> (simp_all; try exact eq_comm)

theorem execExecuteActionStart_eq_next {s t : State} :
    execExecuteActionStart s = .next t ↔
      s.st = .executeAction ∧ s.ph = .run ∧
        ∃ c, s.cmd = some c ∧
          t = { s with resp := [], ph := .awaitExec, trace := s.trace ++ [.execReq c s.cmdBuf] } := by
  unfold execExecuteActionStart
  rw [whenAt_eq_next]
  refine and_congr_right fun _ => and_congr_right fun _ => ?_
  split <;> (simp_all; try exact eq_comm)

theorem execSendResponseStart_eq_next {s t : State} :
    execSendResponseStart s = .next t ↔
      s.st = .sendResponse ∧ s.ph = .run ∧
        ((∃ F, encodeFrame s.params.txCap s.resp = some F ∧ emit F s = .next t) ∨
          (encodeFrame s.params.txCap s.resp = none ∧ t = raise .bufferProcessFailed s)) := by
  unfold execSendResponseStart
  rw [whenAt_eq_next]
  refine and_congr_right fun _ => and_congr_right fun _ => ?_
  split <;> (simp_all; try exact eq_comm)

theorem execResponseSent_eq_next {s t : State} :
    execResponseSent s = .next t ↔
      s.st = .sendResponse ∧ s.ph = .awaitTx ∧ (∃ ok, s.tx = .done ok) ∧
        t = { { s with tx := .idle, resp := [] }.setSt .waitForMessage with ph := .run } := by
  rw [execResponseSent, whenAt_eq_next, whenDone_eq_next, next_eq_next]

theorem execErrorAction_eq_next {s t : State} :
    execErrorAction s = .next t ↔
      ∃ k F, s.st = .error k ∧ s.ph = .run ∧
        encodeFrame s.params.txCap (errorMessage s.params.txCap k s.resp) = some F ∧ emit F s = .next t := by
  unfold execErrorAction
  rw [whenError_eq_next]
  refine exists_congr fun k => ?_
  split <;> simp_all

theorem execErrorResolve_eq_next {s t : State} :
    execErrorResolve s = .next t ↔
      ∃ k, s.st = .error k ∧ s.ph = .awaitTx ∧ (∃ ok, s.tx = .done ok) ∧ t = resolveError s := by
  simp only [execErrorResolve, whenError_eq_next, whenDone_eq_next, next_eq_next]

end Sys2Proof.Machine
end

