-- ==== Sys2Proof/Laws/Frame.lean ====
section
/-! SUPPORT. Small facts of the frame codec. -/

namespace Sys2Proof.Machine

@[simp] theorem varintLoop_nil (j L : Nat) : varintLoop j L [] = .needMoreData := rfl

theorem lowBits_toNat (b : Byte) : (b.extractLsb' 0 7).toNat = b.toNat % 128 := by
  simp [BitVec.extractLsb'_toNat]

theorem continues_iff (b : Byte) : b.getLsbD 7 = decide (128 ≤ b.toNat) := by
  rw [← BitVec.msb_eq_decide (x := b)]; simp [BitVec.msb_eq_getLsbD_last]

theorem highBits_eq_zero_iff (b : Byte) : b.extractLsb' 4 4 = 0 ↔ b.toNat < 16 := by
  rw [← BitVec.toNat_inj, BitVec.extractLsb'_toNat, Nat.shiftRight_eq_div_pow]
  have := b.isLt
  simp; omega

/-- One turn of the prefix loop, in numbers. -/
theorem varintLoop_cons (j L : Nat) (b : Byte) (s : Bytes) :
    varintLoop j L (b :: s) =
      if j = 4 ∧ 16 ≤ b.toNat then .malformed
      else if b.toNat < 128 then .len (L + b.toNat % 128 * 2 ^ (7 * j)) (j + 1)
      else varintLoop (j + 1) (L + b.toNat % 128 * 2 ^ (7 * j)) s := by
  have e : (j = 4 ∧ b.extractLsb' 4 4 ≠ 0) ↔ (j = 4 ∧ 16 ≤ b.toNat) := by
    rw [ne_eq, highBits_eq_zero_iff]; omega
  have c : b.getLsbD 7 = false ↔ b.toNat < 128 := by rw [continues_iff]; simp
  simp only [varintLoop, lowBits_toNat, e, c]

@[simp] theorem decodeFrame_nil : decodeFrame [] = .needMoreData := rfl

theorem decodeFrame_eq_frame {s : Bytes} {f : FrameDesc} :
    decodeFrame s = .frame f ↔
      ∃ L p, varintDecode s = .len L p ∧ p + L ≤ s.length ∧ f = ⟨p, L, p + L⟩ := by
  unfold decodeFrame
  split <;> rename_i h <;> simp [h]
  split <;> simp <;> grind

theorem decodeFrame_eq_malformed {s : Bytes} : decodeFrame s = .malformed ↔ varintDecode s = .malformed := by
  unfold decodeFrame
  split <;> rename_i h <;> simp [h]
  split <;> simp

theorem encodeFrame_eq_some {cap : Nat} {P F : Bytes} :
    encodeFrame cap P = some F ↔
      P.length < 2 ^ 32 ∧ (varintEncode P.length ++ P).length ≤ cap ∧ F = varintEncode P.length ++ P := by
  unfold encodeFrame
  split
  · simp; omega
  · split
    · simp only [reduceCtorEq, false_iff]; omega
    · simp only [Option.some.injEq]; grind

theorem varintGroups_ne_nil (fuel n : Nat) : varintGroups (fuel + 1) n ≠ [] := by
  unfold varintGroups; split <;> simp

theorem varintEncode_ne_nil (n : Nat) : varintEncode n ≠ [] := varintGroups_ne_nil 4 n

theorem plen_pos (n : Nat) : 1 ≤ plen n := by
  have := varintEncode_ne_nil n
  unfold plen
  cases h : varintEncode n <;> simp_all

end Sys2Proof.Machine
end

