-- ==== Sys2Proof/Laws/Handler.lean ====
section
/-! SUPPORT. What the handler's contract restricts, said once. -/

namespace Sys2Proof.Machine

@[simp] theorem isCompletion_execOk (r : Bytes) : isCompletion (.execOk r) = true := rfl

@[simp] theorem isCompletion_execErr (k : ErrorKind) (r : Bytes) : isCompletion (.execErr k r) = true := rfl

theorem isCompletion_eq_true {i : Instr} :
    isCompletion i = true ↔ (∃ r, i = .execOk r) ∨ ∃ k r, i = .execErr k r := by
  cases i <;> simp [isCompletion]

theorem pendingCommand_eq_some {s : State} {c : CommandOwned} :
    s.pendingCommand = some c ↔ s.st = .executeAction ∧ s.ph = .awaitExec ∧ s.cmd = some c := by
  unfold State.pendingCommand; split <;> simp_all

/-- Only a completion of a pending EchoWrite can break the contract, by being another than the echo answer. -/
theorem keepsContract_eq_false {s : State} {i : Instr} :
    s.keepsContract i = false ↔
      s.pendingCommand = some .echoWrite ∧ isCompletion i = true ∧ i ≠ echoAnswer s.params s.cmdBuf := by
  unfold State.keepsContract
  split
  · rename_i c h
    cases c <;> cases hi : isCompletion i <;> simp [h, handlerAnswers, hi]
  · rename_i h; simp [h]

/-- What no pending EchoWrite restricts is drawn freely. -/
theorem keepsContract_of_ne {s : State} (i : Instr) (h : s.pendingCommand ≠ some .echoWrite) :
    s.keepsContract i = true := by
  rw [← Bool.not_eq_false, keepsContract_eq_false]; simp [h]

theorem keepsContract_of_not_completion {s : State} {i : Instr} (h : isCompletion i = false) :
    s.keepsContract i = true := by
  rw [← Bool.not_eq_false, keepsContract_eq_false]; simp [h]

theorem keepsContract_echoAnswer (s : State) : s.keepsContract (echoAnswer s.params s.cmdBuf) = true := by
  rw [← Bool.not_eq_false, keepsContract_eq_false]; simp

end Sys2Proof.Machine
end

