-- ==== Sys2Proof/Laws/PerInstr.lean ====
section
/-! SUPPORT. Statements for all instructions, one lemma per constructor: the bits of the encoded form agree with the
instruction's row of spec/opcode_table.json (its mask and match, copied from the table). -/

namespace Sys2Proof.Laws

/-- The bits of an encoded form, numbered as the table numbers them (30_encoding.md R110, R117, R119). -/
def TableRow.bits : Encoded → Nat
  | .command (m :: o :: _) => m.toNat * 256 + o.toNat
  | .command _ => 0
  | .event w => if w.code = 6 then 4 * w.code.toNat + w.x.toNat else w.code.toNat
  | .internal sel _ => sel.toNat
  | .transmit code => code.toNat

/-- A row's (mask, match) in spec/opcode_table.json. -/
def TableRow.row : Instr → Nat × Nat
  | .echoWrite _ => (0xffff, 0x102)
  | .i2cRead _ _ _ => (0xffff, 0x201)
  | .i2cWrite _ _ _ => (0xffff, 0x202)
  | .unknownCommand _ _ => (0x0, 0x0)
  | .reset => (0x7, 0x0)
  | .rxByte _ => (0x7, 0x1)
  | .rxOverflow => (0x7, 0x2)
  | .timeout => (0x7, 0x3)
  | .execOk _ => (0x7, 0x4)
  | .execErr _ _ => (0x7, 0x5)
  | .txResultOk => (0x1f, 0x18)
  | .txResultFull => (0x1f, 0x19)
  | .txResultErr => (0x1f, 0x1a)
  | .time _ => (0x7, 0x7)
  | .init => (0x1f, 0x0)
  | .handshakeResponseDone => (0x1f, 0x5)
  | .frameReady => (0x1f, 0x8)
  | .frameMalformed => (0x1f, 0x8)
  | .parseCommand => (0x1f, 0xc)
  | .executeActionStart => (0x1f, 0x10)
  | .sendResponseStart => (0x1f, 0x14)
  | .responseSent => (0x1f, 0x15)
  | .errorAction => (0x1f, 0x18)
  | .errorResolve => (0x1f, 0x19)
  | .txAttempt => (0x3, 0x1)

/-- The encoded form matches the row. -/
def TableRow.Statement (i : Instr) : Prop :=
  TableRow.bits (encode i) &&& (TableRow.row i).1 = (TableRow.row i).2

theorem TableRow.echoWrite (payload : Bytes) : TableRow.Statement (.echoWrite payload) := by
  simp [TableRow.Statement, TableRow.bits, TableRow.row, encode]

theorem TableRow.i2cRead (a r l : Byte) : TableRow.Statement (.i2cRead a r l) := by
  simp [TableRow.Statement, TableRow.bits, TableRow.row, encode]

theorem TableRow.i2cWrite (a r : Byte) (q : Bytes) : TableRow.Statement (.i2cWrite a r q) := by
  simp [TableRow.Statement, TableRow.bits, TableRow.row, encode]

theorem TableRow.unknownCommand (m o : Byte) : TableRow.Statement (.unknownCommand m o) := by
  simp [TableRow.Statement, TableRow.row]

theorem TableRow.reset : TableRow.Statement .reset := by
  simp [TableRow.Statement, TableRow.bits, TableRow.row, encode]

theorem TableRow.rxByte (b : Byte) : TableRow.Statement (.rxByte b) := by
  simp [TableRow.Statement, TableRow.bits, TableRow.row, encode]

theorem TableRow.rxOverflow : TableRow.Statement .rxOverflow := by
  simp [TableRow.Statement, TableRow.bits, TableRow.row, encode]

theorem TableRow.timeout : TableRow.Statement .timeout := by
  simp [TableRow.Statement, TableRow.bits, TableRow.row, encode]

theorem TableRow.execOk (r : Bytes) : TableRow.Statement (.execOk r) := by
  simp [TableRow.Statement, TableRow.bits, TableRow.row, encode]

theorem TableRow.execErr (k : ErrorKind) (r : Bytes) : TableRow.Statement (.execErr k r) := by
  simp [TableRow.Statement, TableRow.bits, TableRow.row, encode]

theorem TableRow.txResultOk : TableRow.Statement .txResultOk := by
  simp [TableRow.Statement, TableRow.bits, TableRow.row, encode]

theorem TableRow.txResultFull : TableRow.Statement .txResultFull := by
  simp [TableRow.Statement, TableRow.bits, TableRow.row, encode]

theorem TableRow.txResultErr : TableRow.Statement .txResultErr := by
  simp [TableRow.Statement, TableRow.bits, TableRow.row, encode]

theorem TableRow.time (t : Tick) : TableRow.Statement (.time t) := by
  simp [TableRow.Statement, TableRow.bits, TableRow.row, encode]

theorem TableRow.init : TableRow.Statement .init := by
  simp [TableRow.Statement, TableRow.bits, TableRow.row, encode]

theorem TableRow.handshakeResponseDone : TableRow.Statement .handshakeResponseDone := by
  simp [TableRow.Statement, TableRow.bits, TableRow.row, encode]

theorem TableRow.frameReady : TableRow.Statement .frameReady := by
  simp [TableRow.Statement, TableRow.bits, TableRow.row, encode]

theorem TableRow.frameMalformed : TableRow.Statement .frameMalformed := by
  simp [TableRow.Statement, TableRow.bits, TableRow.row, encode]

theorem TableRow.parseCommand : TableRow.Statement .parseCommand := by
  simp [TableRow.Statement, TableRow.bits, TableRow.row, encode]

theorem TableRow.executeActionStart : TableRow.Statement .executeActionStart := by
  simp [TableRow.Statement, TableRow.bits, TableRow.row, encode]

theorem TableRow.sendResponseStart : TableRow.Statement .sendResponseStart := by
  simp [TableRow.Statement, TableRow.bits, TableRow.row, encode]

theorem TableRow.responseSent : TableRow.Statement .responseSent := by
  simp [TableRow.Statement, TableRow.bits, TableRow.row, encode]

theorem TableRow.errorAction : TableRow.Statement .errorAction := by
  simp [TableRow.Statement, TableRow.bits, TableRow.row, encode]

theorem TableRow.errorResolve : TableRow.Statement .errorResolve := by
  simp [TableRow.Statement, TableRow.bits, TableRow.row, encode]

theorem TableRow.txAttempt : TableRow.Statement .txAttempt := by
  simp [TableRow.Statement, TableRow.bits, TableRow.row, encode]

end Sys2Proof.Laws
end

