-- ==== Sys2Proof/Laws/Safety.lean ====
section
/-! SUPPORT. The two readings of a transcript, over its parts. -/

namespace Sys2Proof.Safety

open Sys2Proof.Machine

theorem sentBytes_append (a b : List TraceItem) : sentBytes (a ++ b) = sentBytes a ++ sentBytes b := by
  induction a with
  | nil => rfl
  | cons x xs ih => cases x <;> simp [sentBytes, ih]

theorem issued_append (a b : List TraceItem) : issued (a ++ b) = issued a ++ issued b := by
  induction a with
  | nil => rfl
  | cons x xs ih => cases x <;> simp [issued, ih]

@[simp] theorem sentBytes_setSt (s : State) (x : SystemState) : sentBytes (s.setSt x).trace = sentBytes s.trace := by
  unfold State.setSt; split <;> simp [sentBytes_append, sentBytes]

@[simp] theorem issued_setSt (s : State) (x : SystemState) : issued (s.setSt x).trace = issued s.trace := by
  unfold State.setSt; split <;> simp [issued_append, issued]

end Sys2Proof.Safety
end

