-- ==== Sys2Proof/Laws/Step.lean ====
section
/-! SUPPORT. What fetch and a step can do, said once. -/

namespace Sys2Proof.Machine

theorem present_eq_ok {w : EventWord} {rest : List Move} {s u : State} {i : Instr} :
    present w rest s = .ok (i, u) ↔
      decodeEvent w = .ok i ∧ s.keepsContract i = true ∧
        u = { s with script := rest, trace := s.trace ++ [.accepted i] } := by
  unfold present
  simp only [decode]
  split
  · split <;> simp only [Except.ok.injEq, Prod.mk.injEq, reduceCtorEq] <;> grind
  · simp_all

/-- The instruction of a step is the enabled internal transition, in a state that differs at most in its script, or a
presented event that keeps the handler's contract, in the state that has dropped its move and recorded it. -/
theorem fetch_eq_ok {s u : State} {i : Instr} (h : fetch s = .ok (i, u)) :
    s.params.Wf ∧
      ((s.internalTransition = some i ∧ ∃ sc, u = { s with script := sc }) ∨
        ∃ w rest, decodeEvent w = .ok i ∧ s.keepsContract i = true ∧
          u = { s with script := rest, trace := s.trace ++ [.accepted i] }) := by
  unfold fetch at h
  split at h
  · rename_i hw
    refine ⟨hw, ?_⟩
    split at h
    · split at h
      · cases h; exact .inl ⟨‹_›, s.script, rfl⟩
      · cases h
    · split at h
      · cases h; exact .inl ⟨‹_›, _, rfl⟩
      · cases h
    · exact .inr ⟨_, _, present_eq_ok.1 h⟩
    · split at h
      · cases h; exact .inl ⟨‹_›, s.script, rfl⟩
      · exact .inr ⟨_, _, present_eq_ok.1 h⟩
  · cases h

theorem step_eq_next {s t : State} :
    step s = .next t ↔ ∃ i u, fetch s = .ok (i, u) ∧ exec i u = .next t := by
  unfold step
  split <;> rename_i h <;> simp_all

/-- What a step can do: run the enabled internal transition, or an event. -/
theorem step_cases {s t : State} (h : step s = .next t) :
    s.params.Wf ∧ ∃ i u, exec i u = .next t ∧
      ((s.internalTransition = some i ∧ ∃ sc, u = { s with script := sc }) ∨
        ∃ w rest, decodeEvent w = .ok i ∧ s.keepsContract i = true ∧
          u = { s with script := rest, trace := s.trace ++ [.accepted i] }) := by
  obtain ⟨i, u, hf, he⟩ := step_eq_next.1 h
  exact ⟨(fetch_eq_ok hf).1, i, u, he, (fetch_eq_ok hf).2⟩

/-- The ten events. -/
theorem decodeEvent_eq_ok {w : EventWord} {i : Instr} (h : decodeEvent w = .ok i) :
    i = .reset ∨ i = .rxByte w.b ∨ i = .rxOverflow ∨ i = .timeout ∨ i = .execOk w.r ∨
      (∃ k, i = .execErr k w.r) ∨ i = .txResultOk ∨ i = .txResultFull ∨ i = .txResultErr ∨ i = .time w.t := by
  unfold decodeEvent at h
  split at h; · simp_all
  split at h; · simp_all
  split at h; · simp_all
  split at h; · simp_all
  split at h; · simp_all
  split at h
  · split at h <;> simp_all
    exact .inr (.inr (.inr (.inr (.inr (.inl ⟨_, h.symm⟩)))))
  split at h
  · split at h; · simp_all
    split at h; · simp_all
    split at h <;> simp_all
  simp_all

/-- The internal rows a control selector can name. -/
theorem decodeInternal_eq_ok {sel : BitVec 5} {cls : FrameClass} {i : Instr} (h : decodeInternal sel cls = .ok i) :
    (sel = 0b00000 ∧ i = .init) ∨ (sel = 0b00101 ∧ i = .handshakeResponseDone) ∨
      (sel = 0b01000 ∧ cls = .frame ∧ i = .frameReady) ∨
      (sel = 0b01000 ∧ cls = .malformed ∧ i = .frameMalformed) ∨ (sel = 0b01100 ∧ i = .parseCommand) ∨
      (sel = 0b10000 ∧ i = .executeActionStart) ∨ (sel = 0b10100 ∧ i = .sendResponseStart) ∨
      (sel = 0b10101 ∧ i = .responseSent) ∨ (sel = 0b11000 ∧ i = .errorAction) ∨
      (sel = 0b11001 ∧ i = .errorResolve) := by
  unfold decodeInternal at h
  split at h; · simp_all
  split at h; · simp_all
  split at h
  · split at h <;> simp_all
  split at h; · simp_all
  split at h; · simp_all
  split at h; · simp_all
  split at h; · simp_all
  split at h; · simp_all
  split at h <;> simp_all

theorem controlTransition_eq_some {s : State} {i : Instr} :
    s.controlTransition = some i ↔
      (s.ph = .awaitTx → s.tx.code = 0b11) ∧
        decodeInternal s.controlSelector (decodeFrame s.fb).cls = .ok i := by
  simp only [State.controlTransition, decode]
  split
  · simp_all
  · cases h : decodeInternal s.controlSelector (decodeFrame s.fb).cls <;> simp_all [Except.toOption]

theorem transmitTransition_eq_some {s : State} {i : Instr} :
    s.transmitTransition = some i ↔
      i = .txAttempt ∧ ∃ msg ci t0 first tn, s.tx = .busy msg ci t0 (.ready first tn) ∧ tn ≤ s.now := by
  unfold State.transmitTransition
  split
  · rename_i msg ci t0 first tn h
    split
    · simp only [h, TxState.code, decode, decodeTransmit, Except.toOption]; grind
    · simp_all
  all_goals simp_all

theorem internalTransition_eq_some {s : State} {i : Instr} :
    s.internalTransition = some i ↔
      s.controlTransition = some i ∨ (s.controlTransition = none ∧ s.transmitTransition = some i) := by
  unfold State.internalTransition; split <;> simp_all

theorem txState_code_done {x : TxState} : x.code = 0b11 ↔ ∃ ok, x = .done ok := by
  rcases x with _ | ⟨_, _, _, (_ | _)⟩ | _ <;> simp [TxState.code]

end Sys2Proof.Machine
end

