-- ==== Sys2Proof/Tests/Slice0.lean ====
section
/-! SUPPORT. Tests. Expected results come from spec/: a V<n>, X<n> or P<n> is a vector of 95_test_vectors.md (all with
the parameters TC), an R<n> the rule the word or value is written out from. -/

namespace Sys2Proof.Tests

open Sys2Proof.Machine Sys2Proof.Safety

/-- The state of an outcome, if it is a next state. -/
def nextOf (r : Result) : Option State :=
  match r with
  | .next t => some t
  | .fault _ => none
  | .refused _ => none

/-- Whether the outcome is a next state with a property. -/
def reaches (r : Result) (p : State → Bool) : Bool :=
  match nextOf r with
  | some t => p t
  | none => false

/-- Whether the outcome is this refusal. -/
def refusedWith (r : Result) (q : Refusal) : Bool :=
  match r with
  | .refused q' => decide (q = q')
  | .next _ => false
  | .fault _ => false

/-- A state at a control pair, TC parameters, everything else as after power-on. -/
def base (st : SystemState) (ph : Phase) : State := { State.reset with st := st, ph := ph }

/-- Waiting for a handshake byte with the deadline at 5000 (section 2.5). -/
def hs (buf : Bytes) (now : Tick) : State :=
  { base .waitForHandshake .run with hsBuf := buf, now := now, deadline := some 5000 }

/-- Waiting for a message byte after the handshake (section 2.6). -/
def msg (fb : Bytes) : State := { base .waitForMessage .run with hsDone := true, fb := fb }

/-- A frame with payload `P` (under 128 bytes) awaiting ParseCommand. -/
def parsing (P : Bytes) : State :=
  { base .parseCommand .run with
    hsDone := true
    fb := BitVec.ofNat 8 P.length :: P
    fr := some ⟨1, P.length, P.length + 1⟩ }

/-- A command issued to the handler. -/
def executing : State := { base .executeAction .awaitExec with hsDone := true, cmd := some .echoWrite, cmdBuf := [0x68] }

/-- A chunk handed to the transport, its first attempt at 100 (section 2.8). -/
def sending (m : Bytes) (ci : Nat) (now : Tick) : State :=
  { base .sendResponse .awaitTx with hsDone := true, now := now, tx := .busy m ci 100 .awaitResult }

/-- Done transmitting in a control state. -/
def sent (st : SystemState) (ok : Bool) : State := { base st .awaitTx with hsDone := true, tx := .done ok }

/-! ### WellFormed refuses an ill-formed term for each check -/

theorem test_tc_is_wf : Params.test.Wf := by decide
theorem test_wf_empty_phrase : ¬ { Params.test with handshakePhrase := [] }.Wf := by decide
theorem test_wf_newline_in_phrase : ¬ { Params.test with handshakePhrase := [0x48, 0x0A] }.Wf := by decide
theorem test_wf_hs_cap : ¬ { Params.test with hsCap := 5 }.Wf := by decide
theorem test_wf_fb_cap : ¬ { Params.test with fbCap := 0 }.Wf := by decide
theorem test_wf_tx_cap : ¬ { Params.test with txCap := 24 }.Wf := by decide
theorem test_wf_max_packet : ¬ { Params.test with maxPacket := 0 }.Wf := by decide
theorem test_wf_hs_timeout : ¬ { Params.test with hsTimeout := 0 }.Wf := by decide
theorem test_wf_retry_interval : ¬ { Params.test with retryInterval := 0 }.Wf := by decide
theorem test_wf_response (r : Bytes) (h : r.length = 2 ^ 32) : ¬ { Params.test with handshakeResponse := r }.Wf := by
  rintro ⟨-, -, h1, -⟩; simp only at h1; omega
theorem test_wf_unknown : (Instr.unknownCommand 0x01 0x02).wf Params.test = false := by decide
theorem test_wf_execOk : (Instr.execOk (List.replicate 17 0)).wf Params.test = false := by decide
theorem test_wf_execErr : (Instr.execErr .timeout (List.replicate 17 0)).wf Params.test = false := by decide

/-! ### Decoding, one word per row, written out from R108 to R119 -/

theorem test_dec_echoWrite : decode (.command [0x01, 0x02, 0x68, 0x69]) = .ok (.echoWrite [0x68, 0x69]) := by decide
theorem test_dec_i2cRead : decode (.command [0x02, 0x01, 0x50, 0x10, 0x04, 0x99]) = .ok (.i2cRead 0x50 0x10 0x04) := by
  decide
theorem test_dec_i2cWrite : decode (.command [0x02, 0x02, 0x50, 0x01, 0xAA]) = .ok (.i2cWrite 0x50 0x01 [0xAA]) := by
  decide
theorem test_dec_unknown : decode (.command [0xFF, 0x01]) = .ok (.unknownCommand 0xFF 0x01) := by decide
theorem test_dec_reset : decode (.event { code := 0b000 }) = .ok .reset := by decide
theorem test_dec_rxByte : decode (.event { code := 0b001, b := 0x48 }) = .ok (.rxByte 0x48) := by decide
theorem test_dec_rxOverflow : decode (.event { code := 0b010 }) = .ok .rxOverflow := by decide
theorem test_dec_timeout : decode (.event { code := 0b011 }) = .ok .timeout := by decide
theorem test_dec_execOk : decode (.event { code := 0b100, r := [0x12] }) = .ok (.execOk [0x12]) := by decide
theorem test_dec_execErr : decode (.event { code := 0b101, k := 0b011 }) = .ok (.execErr .executionFailed []) := by
  decide
theorem test_dec_txResultOk : decode (.event { code := 0b110, x := 0b00 }) = .ok .txResultOk := by decide
theorem test_dec_txResultFull : decode (.event { code := 0b110, x := 0b01 }) = .ok .txResultFull := by decide
theorem test_dec_txResultErr : decode (.event { code := 0b110, x := 0b10 }) = .ok .txResultErr := by decide
theorem test_dec_time : decode (.event { code := 0b111, t := 10 }) = .ok (.time 10) := by decide
theorem test_dec_init : decode (.internal 0b00000 .needMoreData) = .ok .init := by decide
theorem test_dec_handshakeResponseDone : decode (.internal 0b00101 .frame) = .ok .handshakeResponseDone := by decide
theorem test_dec_frameReady : decode (.internal 0b01000 .frame) = .ok .frameReady := by decide
theorem test_dec_frameMalformed : decode (.internal 0b01000 .malformed) = .ok .frameMalformed := by decide
theorem test_dec_parseCommand : decode (.internal 0b01100 .frame) = .ok .parseCommand := by decide
theorem test_dec_executeActionStart : decode (.internal 0b10000 .frame) = .ok .executeActionStart := by decide
theorem test_dec_sendResponseStart : decode (.internal 0b10100 .frame) = .ok .sendResponseStart := by decide
theorem test_dec_responseSent : decode (.internal 0b10101 .frame) = .ok .responseSent := by decide
theorem test_dec_errorAction : decode (.internal 0b11000 .frame) = .ok .errorAction := by decide
theorem test_dec_errorResolve : decode (.internal 0b11001 .frame) = .ok .errorResolve := by decide
theorem test_dec_txAttempt : decode (.transmit 0b01) = .ok .txAttempt := by decide
theorem test_dec_quiescent_selector : decode (.internal 0b00100 .frame) = .error .noTransition := by decide
theorem test_dec_short : decode (.command [0x01]) = .error .badOperands := by decide
theorem test_dec_bad_kind : decode (.event { code := 5, k := 5 }) = .error .badKind := by decide
theorem test_dec_bad_result : decode (.event { code := 6, x := 3 }) = .error .badResult := by decide
theorem test_dec_idle : decode (.transmit 0b00) = .error .noAttempt := by decide

/-! ### Words of the opcode table, and the step that runs them first after reset (log 10, log 11) -/

theorem test_table_command : decodeTableWord 16 0x0201 = some (.i2cRead 0 0 0) := by decide
theorem test_table_unknown : decodeTableWord 16 0x0101 = some (.unknownCommand 0x01 0x01) := by decide
theorem test_table_event : decodeTableWord 8 0x19 = some .txResultFull := by decide
theorem test_table_internal : decodeTableWord 8 0x14 = some .sendResponseStart := by decide
theorem test_fetch_command :
    reaches (step (State.reset.withFetchWord 16 0x0202)) (fun t => t.cmd = some (.i2cWrite 0 0)) = true := by decide
theorem test_fetch_event :
    reaches (step (State.reset.withFetchWord 8 0x04)) (fun t => t.st = .sendResponse) = true := by decide
theorem test_fetch_attempt :
    reaches (step (State.reset.withFetchWord 2 0x01)) (fun t => t.trace = [.txChunk [0]]) = true := by decide

/-! ### Frame codec: V1 to V30 -/

theorem test_varint_300 : varintDecode [0xAC, 0x02] = .len 300 2 := by decide
theorem test_varint_noncanonical : varintDecode [0x82, 0x00] = .len 2 2 := by decide
theorem test_varint_max : varintDecode [0xFF, 0xFF, 0xFF, 0xFF, 0x0F] = .len 0xFFFFFFFF 5 := by decide
theorem test_varint_fifth : varintDecode [0xFF, 0xFF, 0xFF, 0xFF, 0x10] = .malformed := by decide
theorem test_varint_four : varintDecode [0x80, 0x80, 0x80, 0x80] = .needMoreData := by decide
theorem test_encode_16384 : varintEncode 16384 = [0x80, 0x80, 0x01] := by decide
theorem test_encode_max : varintEncode 0xFFFFFFFF = [0xFF, 0xFF, 0xFF, 0xFF, 0x0F] := by decide
theorem test_decode_leftover : decodeFrame [0x03, 0xAA, 0xBB, 0xCC, 0xDD] = .frame ⟨1, 3, 4⟩ := by decide
theorem test_decode_empty : decodeFrame [0x00] = .frame ⟨1, 0, 1⟩ := by decide
theorem test_decode_short : decodeFrame [0x03, 0xAA, 0xBB] = .needMoreData := by decide
theorem test_encode_31 : (encodeFrame 32 (List.replicate 31 0)).map List.length = some 32 := by decide
theorem test_encode_32 : encodeFrame 32 (List.replicate 32 0) = none := by decide
theorem test_max_payload : (maxTxPayload 32, maxTxPayload 129, maxTxPayload 130) = (31, 127, 128) := by decide

/-! ### Commands: V31 to V46 -/

theorem test_parse_empty : parsePayload 8 [] = .error .invalidChecksum := by decide
theorem test_parse_echo_nine : parsePayload 8 (0x01 :: 0x02 :: List.replicate 9 0x31) = .error .bufferProcessFailed := by
  decide
theorem test_parse_echo_read : parsePayload 8 [0x01, 0x01, 0x68] = .error .unknownCommand := by decide
theorem test_parse_read_short : parsePayload 8 [0x02, 0x01, 0x50, 0x10] = .error .invalidChecksum := by decide
theorem test_parse_write : parsePayload 8 [0x02, 0x02, 0x50, 0x01] = .ok (.i2cWrite 0x50 0x01, []) := by decide

/-! ### Host text: V51, V55, V56, V59, V60, V61 -/

theorem test_host_echo :
    hostEncode [0x65, 0x63, 0x68, 0x6F, 0x20, 0x20, 0x68, 0x69, 0x20, 0x20, 0x20, 0x79, 0x20] =
      some [0x01, 0x02, 0x68, 0x69, 0x20, 0x79] := by decide
/-- `i2c read 80 0b10000 0x4`. -/
theorem test_host_read :
    hostEncode
      [0x69, 0x32, 0x63, 0x20, 0x72, 0x65, 0x61, 0x64, 0x20, 0x38, 0x30, 0x20, 0x30, 0x62, 0x31, 0x30, 0x30, 0x30, 0x30,
        0x20, 0x30, 0x78, 0x34] = some [0x02, 0x01, 0x50, 0x10, 0x04] := by decide
/-- `i2c write 80 1 0xAA`. -/
theorem test_host_write :
    hostEncode
      [0x69, 0x32, 0x63, 0x20, 0x77, 0x72, 0x69, 0x74, 0x65, 0x20, 0x38, 0x30, 0x20, 0x31, 0x20, 0x30, 0x78, 0x41, 0x41] =
        some [0x02, 0x02, 0x50, 0x01, 0xAA] := by decide
/-- `i2c read 80 1`: the length operand is required. -/
theorem test_host_read_short :
    hostEncode [0x69, 0x32, 0x63, 0x20, 0x72, 0x65, 0x61, 0x64, 0x20, 0x38, 0x30, 0x20, 0x31] = none := by decide
/-- `256`, `0x`, `0X50`, `-1`. -/
theorem test_host_num :
    [num [0x32, 0x35, 0x36], num [0x30, 0x78], num [0x30, 0x58, 0x35, 0x30], num [0x2D, 0x31]] =
      [none, none, none, none] := by decide

/-! ### Instructions, one step each -/

/-- R400, V96: from `(ExecuteAction, AwaitExec)`. -/
theorem test_reset :
    reaches (exec .reset { executing with now := 50 })
      (fun t => t = { State.reset with now := 50, status := some 0, trace := [.statusWrite 0] }) = true := by decide
/-- R281's example and V72. -/
theorem test_init : reaches (exec .init (base .init .run)) (fun t => t.timeRemaining = some 5000) = true := by decide
theorem test_init_saturates :
    reaches (exec .init { base .init .run with now := 0xFFFFFFFFFFFFFFF6 })
      (fun t => t.deadline = some 0xFFFFFFFFFFFFFFFF) = true := by decide
/-- V63: the sixth byte. -/
theorem test_rxByte_match :
    reaches (exec (.rxByte 0x0A) (hs [0x48, 0x45, 0x4C, 0x4C, 0x4F] 0))
      (fun t => t.hsDone = true ∧ t.deadline = none ∧
        t.tx = .busy [0x52, 0x45, 0x41, 0x44, 0x59, 0x0A] 0 0 (.ready true 0)) = true := by decide
/-- V81: the byte after a full buffer. -/
theorem test_rxByte_overflow :
    reaches (exec (.rxByte 0x40) (msg (0x20 :: List.replicate 15 0x30)))
      (fun t => t.st = .error .invalidChecksum ∧ t.fb = []) = true := by decide
/-- R156: no byte is accepted while the handler works. -/
theorem test_rxByte_backpressure : refusedWith (exec (.rxByte 0x00) executing) .notPresentable = true := by decide
/-- V71. -/
theorem test_rxOverflow :
    reaches (exec .rxOverflow (hs [0x48, 0x45] 1000))
      (fun t => t.st = .error .invalidChecksum ∧ t.hsBuf = [0x48, 0x45]) = true := by decide
/-- V68, V69. -/
theorem test_timeout_early :
    reaches (exec .timeout (hs [0x48] 4999)) (fun t => t = hs [0x48] 4999) = true := by decide
theorem test_timeout :
    reaches (exec .timeout (hs [0x48] 5000)) (fun t => t.st = .error .timeout ∧ t.hsBuf = []) = true := by decide
theorem test_execOk :
    reaches (exec (.execOk [0x12]) executing)
      (fun t => t.st = .sendResponse ∧ t.ph = .run ∧ t.resp = [0x12] ∧ t.cmdBuf = []) = true := by decide
theorem test_execErr :
    reaches (exec (.execErr .executionFailed [0x12]) executing)
      (fun t => t.st = .error .executionFailed ∧ t.ph = .run ∧ t.resp = [0x12]) = true := by decide
/-- R333, R334: a step takes the echo answer for a pending EchoWrite and no other. -/
theorem test_echo_answer :
    reaches (step { executing with script := [.now { code := 4, r := [0x45, 0x63, 0x68, 0x6F, 0x3A, 0x20, 0x68] }] })
      (fun t => t.resp = [0x45, 0x63, 0x68, 0x6F, 0x3A, 0x20, 0x68]) = true := by decide
theorem test_echo_contract :
    refusedWith (step { executing with script := [.now { code := 5, k := 3 }] }) .handlerContract = true := by decide
/-- R255: nine bytes need two results. -/
theorem test_txResultOk :
    reaches (exec .txResultOk (sending (List.replicate 9 0) 0 100))
      (fun t => t.tx = .busy (List.replicate 9 0) 1 100 (.ready true 100)) = true := by decide
theorem test_txResultOk_last :
    reaches (exec .txResultOk (sending (List.replicate 9 0) 1 100)) (fun t => t.tx = .done true) = true := by decide
/-- R256's example: a retry at 121, a failure at 150. -/
theorem test_txResultFull :
    reaches (exec .txResultFull (sending [0] 0 120)) (fun t => t.tx = .busy [0] 0 100 (.ready false 121)) = true := by
  decide
theorem test_txResultFull_deadline :
    reaches (exec .txResultFull (sending [0] 0 150)) (fun t => t.tx = .done false) = true := by decide
theorem test_txResultErr :
    reaches (exec .txResultErr (sending (List.replicate 9 0) 0 100)) (fun t => t.tx = .done false) = true := by decide
theorem test_time : reaches (exec (.time 10) State.reset) (fun t => t = { State.reset with now := 10 }) = true := by
  decide
theorem test_time_backwards : refusedWith (exec (.time 9) { State.reset with now := 10 }) .notPresentable = true := by
  decide
theorem test_handshakeResponseDone :
    reaches (exec .handshakeResponseDone (sent .waitForHandshake false))
      (fun t => t.st = .waitForMessage ∧ t.tx = .idle ∧ t.status = some 2) = true := by decide
/-- R313's example. -/
theorem test_frameReady :
    reaches (exec .frameReady (msg [0x04, 0x01, 0x02, 0x68, 0x69]))
      (fun t => t.fr = some ⟨1, 4, 5⟩ ∧ t.fb.length = 5) = true := by decide
/-- V80. -/
theorem test_frameMalformed :
    reaches (exec .frameMalformed (msg [0x80, 0x80, 0x80, 0x80, 0x80]))
      (fun t => t.st = .error .invalidChecksum ∧ t.fb = []) = true := by decide
/-- V79's command: trailing bytes ignored. -/
theorem test_parseCommand :
    reaches (exec .parseCommand (parsing [0x02, 0x01, 0x50, 0x10, 0x04, 0x99]))
      (fun t => t.cmd = some (.i2cRead 0x50 0x10 0x04) ∧ t.fb = [] ∧ t.fr = none ∧ t.cmdBuf = []) = true := by decide
/-- X1. -/
theorem test_parseCommand_unknown :
    reaches (exec .parseCommand (parsing [0xFF, 0x01])) (fun t => t.st = .error .unknownCommand ∧ t.fb = []) = true := by
  decide
theorem test_echoWrite :
    reaches (exec (.echoWrite [0x68, 0x69]) (parsing [0x01, 0x02, 0x68, 0x69]))
      (fun t => t.cmd = some .echoWrite ∧ t.cmdBuf = [0x68, 0x69] ∧ t.st = .executeAction) = true := by decide
theorem test_i2cWrite_too_long :
    reaches (exec (.i2cWrite 0x50 0x01 (List.replicate 9 0)) (parsing [0x02, 0x02]))
      (fun t => t.st = .error .bufferProcessFailed ∧ t.cmdBuf = []) = true := by decide
/-- V73's request. -/
theorem test_executeActionStart :
    reaches (exec .executeActionStart { executing with ph := .run, resp := [0x01] })
      (fun t => t.trace = [.execReq .echoWrite [0x68]] ∧ t.resp = [] ∧ t.ph = .awaitExec) = true := by decide
/-- V78: an empty response frame. -/
theorem test_sendResponseStart :
    reaches (exec .sendResponseStart (base .sendResponse .run)) (fun t => t.tx = .busy [0x00] 0 0 (.ready true 0)) = true :=
  by decide
theorem test_responseSent :
    reaches (exec .responseSent { sent .sendResponse true with resp := [0x12] })
      (fun t => t.st = .waitForMessage ∧ t.resp = []) = true := by decide
/-- V86. -/
theorem test_errorAction :
    reaches (exec .errorAction (base (.error .timeout) .run))
      (fun t => t.tx =
        .busy [0x0C, 0x45, 0x52, 0x52, 0x3A, 0x20, 0x54, 0x69, 0x6D, 0x65, 0x6F, 0x75, 0x74] 0 0 (.ready true 0)) = true :=
  by decide
/-- V89: cut to 31 bytes. -/
theorem test_errorMessage_cut :
    errorMessage 32 .executionFailed
        [0x30, 0x31, 0x32, 0x33, 0x34, 0x35, 0x36, 0x37, 0x38, 0x39, 0x41, 0x42, 0x43, 0x44, 0x45, 0x46] =
      [0x45, 0x52, 0x52, 0x3A, 0x20, 0x45, 0x78, 0x65, 0x63, 0x75, 0x74, 0x69, 0x6F, 0x6E, 0x46, 0x61, 0x69, 0x6C, 0x65,
        0x64, 0x3A, 0x20, 0x30, 0x31, 0x32, 0x33, 0x34, 0x35, 0x36, 0x37, 0x38] := by decide
/-- R363's example: the deadline counts from the end of the message. -/
theorem test_errorResolve :
    reaches (exec .errorResolve { sent (.error .timeout) true with hsDone := false, now := 5002 })
      (fun t => t.st = .waitForHandshake ∧ t.deadline = some 10002) = true := by decide
/-- R254's example: the second chunk of nine bytes. -/
theorem test_txAttempt :
    reaches
      (exec .txAttempt
        { base .sendResponse .awaitTx with
          now := 7
          tx := .busy [1, 2, 3, 4, 5, 6, 7, 8, 9] 1 3 (.ready true 7) })
      (fun t => t.trace = [.txChunk [9]] ∧ t.tx = .busy [1, 2, 3, 4, 5, 6, 7, 8, 9] 1 7 .awaitResult) = true := by decide

/-! ### Witnesses: for each statement with hypotheses, states and operands that meet them, at the edges of their
ranges, one conjunct for each clause -/

/-- The first payload that TC's encoder refuses, in a response buffer that holds it. -/
def tooLong : State :=
  { base .sendResponse .run with
    params := { Params.test with respCap := 32 }
    hsDone := true
    resp := List.replicate 32 0 }

/-- A state about to issue its command. -/
def issuing : State := { executing with ph := .run }

/-- A state about to attempt its chunk. -/
def attempting : State := { sending [1, 2, 3] 0 100 with tx := .busy [1, 2, 3] 0 100 (.ready true 100) }

theorem witness_DecodeOfEncode :
    (Instr.unknownCommand 0x01 0x01).wf Params.test = true ∧
      (Instr.execOk (List.replicate 16 0)).wf Params.test = true := by decide
theorem witness_SelectorIsChecked :
    ¬ supported 0x01 0x01 ∧ ¬ supported 0x00 0x00 ∧ ¬ supported 0xFF 0xFF ∧ ([0x01] : Bytes).length < 2 := by decide
theorem witness_OperandsAndParse : ([0x50, 0x10] : Bytes).length < 3 ∧ ([0x50] : Bytes).length < 2 := by decide
theorem witness_DecodedCommand :
    decodeCommand [0x02, 0x01, 0x50, 0x10, 0x04, 0x99] = .ok (.i2cRead 0x50 0x10 0x04) ∧ ([0x99] : Bytes) ≠ [] := by
  decide
theorem witness_UnlistedEvents :
    ({ code := 6, x := 3 } : EventWord).code = 6 ∧ ({ code := 6, x := 3 } : EventWord).x = 3 ∧
      4 < ({ code := 5, k := 5 } : EventWord).k.toNat := by decide
theorem witness_UnlistedSelector (i : Instr) :
    encode i ≠ .internal 0b00100 .frame ∧ encode i ≠ .internal 0b00100 .needMoreData := by
  cases i <;> simp [encode]
theorem witness_LengthPrefix : 0xFFFFFFFF < 2 ^ 32 := by decide
/-- The longest prefix, of the greatest length, and a prefix of 2 that is not the shortest, with the frame buffered and
with it not. -/
theorem witness_LengthPrefix_any :
    ([0xFF, 0xFF, 0xFF, 0xFF] : Bytes).length = 4 ∧ (∀ c ∈ ([0xFF, 0xFF, 0xFF, 0xFF] : Bytes), 128 ≤ c.toNat) ∧
      (0x0F : Byte).toNat < 16 ∧ (0x00 : Byte).toNat < 128 ∧
      ([0x82] ++ [0x00] : Bytes).foldr (fun c more => c.toNat % 128 + 128 * more) 0 = 2 ∧
      ([0x68, 0x69] : Bytes).length = 2 ∧ ([0x68] : Bytes).length < 2 := by decide
theorem witness_UnusedKindCode : 4 < (5 : BitVec 3).toNat := by decide
theorem witness_DecodeIsStable :
    decodeFrame [0x00] = .frame ⟨1, 0, 1⟩ ∧ decodeFrame [0x80, 0x80, 0x80, 0x80, 0x10] = .malformed ∧
      decodeFrame ([0x02] ++ [0x68]) = .needMoreData := by decide
theorem witness_FrameRoundTrip : encodeFrame 1 [] = some [0x00] := by decide
theorem witness_Chunks :
    1 < nch 8 (List.replicate 9 0) ∧ 0 + 1 < nch 8 (List.replicate 9 0) ∧ 1 + 1 = nch 8 (List.replicate 9 0) ∧
      0 + 1 = nch 8 (List.replicate 8 0) := by decide
theorem witness_ErrorMessage : { Params.test with txCap := 25 }.Wf := by decide

theorem witness_HandshakeByte :
    (hs [] 0).st = .waitForHandshake ∧ (hs [] 0).ph = .run ∧ (hs [] 0).tx = .idle ∧
      (hs (List.replicate 16 0x41) 0).hsBuf.length = (hs [] 0).params.hsCap ∧
      (hs (List.replicate 15 0x41) 0).hsBuf.length < (hs [] 0).params.hsCap ∧
      (hs (List.replicate 15 0x41) 0).hsBuf ≠ (hs [] 0).params.handshakePhrase ∧
      (hs [0x48, 0x45, 0x4C, 0x4C, 0x4F] 0).hsBuf = (hs [] 0).params.handshakePhrase := by decide
theorem witness_MessageByte :
    (msg []).st = .waitForMessage ∧ (msg []).ph = .run ∧
      decodeFrame (msg (0x20 :: List.replicate 14 0)).fb = .needMoreData ∧
      (msg (0x20 :: List.replicate 14 0)).fb.length < (msg []).params.fbCap ∧
      decodeFrame (msg (0x20 :: List.replicate 15 0)).fb = .needMoreData ∧
      (msg (0x20 :: List.replicate 15 0)).fb.length = (msg []).params.fbCap := by decide
theorem witness_quiescent : (hs [0x48] 0).quiescent = true ∧ (msg [0x05]).quiescent = true := by decide
theorem witness_Timeout :
    (hs [] 5000).st = .waitForHandshake ∧ (hs [] 5000).deadline = some 5000 ∧ (5000 : Tick) ≤ (hs [] 5000).now ∧
      (msg []).st ≠ .waitForHandshake ∧ (msg []).deadline = none ∧ (hs [] 4999).deadline = some 5000 ∧
      (hs [] 4999).now < 5000 := by decide
theorem witness_HandlerCompletion :
    executing.st = .executeAction ∧ executing.ph = .awaitExec ∧
      (List.replicate 16 0 : Bytes).length ≤ executing.params.respCap := by decide
/-- A command issued to the handler with an event presented. -/
def answering (c : CommandOwned) (w : EventWord) : State := { executing with cmd := some c, script := [.now w] }

/-- The echo answer, another answer, and one to an I2C command. -/
theorem witness_HandlerContract :
    (answering .echoWrite ⟨4, 0, 0, [], 0, 0⟩).params.Wf ∧
      (answering .echoWrite ⟨4, 0, 0, [], 0, 0⟩).params.echoPrefix.length + (answering .echoWrite ⟨4, 0, 0, [], 0, 0⟩).cmdBuf.length ≤
        (answering .echoWrite ⟨4, 0, 0, [], 0, 0⟩).params.respCap ∧
      decode (.event { code := 4, r := [0x45, 0x63, 0x68, 0x6F, 0x3A, 0x20, 0x68] }) =
        .ok (.execOk ((answering .echoWrite ⟨4, 0, 0, [], 0, 0⟩).params.echoPrefix ++ [0x68])) ∧
      decode (.event { code := 4 }) = .ok (.execOk []) ∧
      refusedWith (step (answering .echoWrite { code := 4 })) .handlerContract = true ∧
      reaches (step (answering (.i2cWrite 0x50 0x01) { code := 4 })) (fun t => t.st = .sendResponse) = true ∧
      (answering .echoWrite ⟨4, 0, 0, [], 0, 0⟩).keepsContract (.execOk []) = false := by decide
theorem witness_Transport :
    (sending [0] 0 100).tx = .busy [0] 0 100 .awaitResult ∧ (100 : Tick) ≤ (sending [0] 0 100).now ∧
      (100 : Tick) ≤ (sending [0] 0 150).now := by decide
theorem witness_Time : (hs [] 10).now ≤ 10 ∧ 9 < (hs [] 10).now := by decide
theorem witness_EventsOutside :
    executing.quiescent = false ∧ ¬ (issuing.st = .executeAction ∧ issuing.ph = .awaitExec) ∧
      executing.params.respCap < (List.replicate 17 0 : Bytes).length := by decide
theorem witness_EventsOutside_transport (m : Bytes) (ci : Nat) (t0 : Tick) :
    executing.tx ≠ .busy m ci t0 .awaitResult ∧ attempting.tx ≠ .busy m ci t0 .awaitResult := by
  simp [executing, attempting, base, State.reset, State.powerOn]

theorem witness_Init : (base .init .run).st = .init ∧ (base .init .run).ph = .run := by decide
theorem witness_FinishedTransmission :
    (sent .waitForHandshake false).ph = .awaitTx ∧ (sent .waitForHandshake false).tx = .done false ∧
      (sent .waitForHandshake false).st = .waitForHandshake ∧ (sent .sendResponse true).st = .sendResponse := by decide
theorem witness_FrameReady :
    (msg [0x00]).st = .waitForMessage ∧ (msg [0x00]).ph = .run ∧ decodeFrame (msg [0x00]).fb = .frame ⟨1, 0, 1⟩ ∧
      decodeFrame (msg [0x80, 0x80, 0x80, 0x80, 0x10]).fb = .malformed := by decide
theorem witness_NeedMoreData :
    (msg []).st = .waitForMessage ∧ (msg []).ph = .run ∧ decodeFrame (msg []).fb = .needMoreData ∧
      (msg []).tx = .idle ∧ (msg []).params.Wf ∧ (msg []).script = [] ∧ (msg []).fb.length < (msg []).params.fbCap := by
  decide
theorem witness_ParseCommand :
    (parsing [0x01, 0x02]).st = .parseCommand ∧ (parsing [0x01, 0x02]).ph = .run ∧
      (parsing [0x01, 0x02]).fr = some ⟨1, 2, 3⟩ ∧ memRead (parsing [0x01, 0x02]).fb 1 2 = some [0x01, 0x02] ∧
      3 ≤ (parsing [0x01, 0x02]).fb.length ∧ parsePayload 8 [0x01, 0x02] = .ok (.echoWrite, []) ∧
      parsePayload 8 [0xFF, 0x01] = .error .unknownCommand := by decide
theorem witness_Commands :
    (List.replicate 8 0 : Bytes).length ≤ (parsing []).params.cmdCap ∧
      (parsing []).params.cmdCap < (List.replicate 9 0 : Bytes).length := by decide
theorem witness_ExecuteAction :
    issuing.st = .executeAction ∧ issuing.ph = .run ∧ issuing.cmd = some .echoWrite := by decide
theorem witness_SendResponse :
    (base .sendResponse .run).st = .sendResponse ∧ (base .sendResponse .run).ph = .run ∧
      encodeFrame (base .sendResponse .run).params.txCap (base .sendResponse .run).resp = some [0x00] ∧
      (base .sendResponse .run).tx = .idle ∧ encodeFrame tooLong.params.txCap tooLong.resp = none := by decide
theorem witness_ErrorAction :
    (base (.error .timeout) .run).params.Wf ∧ (base (.error .timeout) .run).st = .error .timeout ∧
      (base (.error .timeout) .run).ph = .run ∧ (base (.error .timeout) .run).tx = .idle := by decide
theorem witness_ErrorResolve :
    (sent (.error .timeout) true).st = .error .timeout ∧ (sent (.error .timeout) true).ph = .awaitTx ∧
      (sent (.error .timeout) true).tx = .done true ∧ (sent (.error .timeout) true).hsDone = true ∧
      ({ sent (.error .timeout) true with hsDone := false } : State).hsDone = false := by decide
theorem witness_Attempt :
    attempting.tx = .busy [1, 2, 3] 0 100 (.ready true 100) ∧ (100 : Tick) ≤ attempting.now := by decide
/-- One state for every row but ErrorAction's and Init's, and one for those. -/
theorem witness_Disabled :
    ¬ ((base (.error .timeout) .run).st = .init) ∧ (base .init .run).ph ≠ .awaitTx ∧
      ¬ ((base .init .run).st = .waitForMessage) ∧ ¬ ((base .init .run).st = .parseCommand) ∧
      ¬ ((base .init .run).st = .executeAction) ∧ ¬ ((base .init .run).st = .sendResponse) ∧
      ¬ (∃ k, (base .init .run).st = .error k) := by
  refine ⟨by decide, by decide, by decide, by decide, by decide, by decide, ?_⟩
  simp [base]
/-- A retry that is not yet due. -/
theorem witness_Disabled_attempt (m : Bytes) (ci : Nat) (t0 tn : Tick) (first : Bool)
    (h : ({ attempting with now := 99 } : State).tx = .busy m ci t0 (.ready first tn)) : 99 < tn := by
  cases h; decide
theorem witness_BrokenPreconditions :
    (base .parseCommand .run).fr = none ∧
      (base .parseCommand .run).fb.length < (⟨1, 0, 1⟩ : FrameDesc).off + (⟨1, 0, 1⟩ : FrameDesc).plen ∧
      (base .parseCommand .run).fb.length < (⟨0, 0, 1⟩ : FrameDesc).consumed ∧
      (⟨0, 0, 1⟩ : FrameDesc).off + (⟨0, 0, 1⟩ : FrameDesc).plen ≤ (base .parseCommand .run).fb.length ∧
      (base .executeAction .run).cmd = none := by decide
/-- The engine not idle in `ph = Run`, and the one capacity (R12 refuses it) in which no frame fits. -/
theorem witness_BrokenPreconditions_emit :
    ({ hs [0x48, 0x45, 0x4C, 0x4C, 0x4F] 0 with tx := .done true } : State).tx ≠ .idle ∧
      (hs [0x48, 0x45, 0x4C, 0x4C, 0x4F] 0).hsBuf = (hs [] 0).params.handshakePhrase ∧
      encodeFrame (base .sendResponse .run).params.txCap (base .sendResponse .run).resp = some [0x00] ∧
      (encodeFrame 32 (errorMessage 32 .timeout [])).isSome = true ∧
      encodeFrame 0 (errorMessage 0 .timeout []) = none := by decide

theorem witness_StepRuns :
    (msg []).params.Wf ∧ decode (.event { code := 0 }) = .ok .reset ∧ (msg []).internalTransition = none ∧
      (msg [0x00]).internalTransition = some .frameReady ∧ decode (.event { code := 6, x := 3 }) = .error .badResult ∧
      ¬ { Params.test with maxPacket := 0 }.Wf := by decide
theorem witness_ParseRunsTheCommand :
    (parsing [0xFF, 0x01]).fr = some ⟨1, 2, 3⟩ ∧ memRead (parsing [0xFF, 0x01]).fb 1 2 = some [0xFF, 0x01] ∧
      decodeCommand [0xFF, 0x01] = .ok (.unknownCommand 0xFF 0x01) := by decide
theorem witness_legalPair :
    legalPair (msg []).st (msg []).ph = true ∧ legalPair (sent .sendResponse true).st .awaitTx = true := by decide

/-- Three states of the invariant: waiting for a message, about to issue a command, sending the response. -/
theorem witness_BlockInv_waiting : BlockInv (msg [0x05, 0x01]) := by
  constructor <;>
    simp [msg, base, State.reset, State.powerOn, legalPair, BuffersBounded, DeadlineRule, ControlDataRule,
      Params.test, Params.Wf, decodeFrame, varintDecode, varintLoop]
theorem witness_BlockInv_issuing : BlockInv issuing := by
  constructor <;>
    simp [issuing, executing, base, State.reset, State.powerOn, legalPair, BuffersBounded, DeadlineRule,
      ControlDataRule, Params.test, Params.Wf]
theorem witness_BlockInv_sending : BlockInv attempting := by
  constructor <;>
    simp [attempting, sending, base, State.reset, State.powerOn, legalPair, BuffersBounded, DeadlineRule,
      ControlDataRule, Params.test, Params.Wf, Params.txStage, nch]
  all_goals
    rintro _ _ _ _ rfl rfl rfl rfl
    decide
/-- With no move the first of them waits for the environment, the other two step. -/
theorem witness_steps :
    (msg [0x05, 0x01]).quiescent = true ∧ refusedWith (step (msg [0x05, 0x01])) .noInput = true ∧
      attempting.internalTransition = some .txAttempt ∧
      reaches (step attempting) (fun t => t.tx = .busy [1, 2, 3] 0 100 .awaitResult) = true ∧
      reaches (step issuing) (fun t => issued t.trace = [(.echoWrite, [0x68])]) = true := by decide
/-- A state that waits for the transport, and one that waits for the handler. -/
theorem witness_waits :
    (sending [0] 0 100).internalTransition = none ∧ executing.internalTransition = none := by decide
/-- States that differ in `status`, one whose step is refused and one whose step faults. -/
theorem witness_StatusNeverAffects :
    (msg []).status ≠ some 2 ∧ refusedWith (step (msg [])) .noInput = true ∧
      (step (base .parseCommand .run) matches .fault .noFrame) = true := by decide
/-- A step that moves the clock. -/
theorem witness_clock :
    reaches (step { msg [] with script := [.now { code := 7, t := 1 }] }) (fun t => t.now ≠ (msg []).now) = true := by
  decide
/-- Steps that change `st` and that keep it, and each way `hs_done` changes. -/
theorem witness_writers :
    reaches (step (msg [0x00])) (fun t => t.st ≠ .waitForMessage) = true ∧
      reaches (step attempting) (fun t => t.st = attempting.st) = true ∧
      reaches (step { hs [0x48, 0x45, 0x4C, 0x4C, 0x4F] 0 with script := [.now { code := 1, b := 0x0A }] })
        (fun t => t.hsDone = true) = true ∧
      reaches (step { hs [] 5000 with hsDone := true, script := [.now { code := 3 }] })
        (fun t => t.hsDone = false ∧ t.st = .error .timeout) = true ∧
      reaches (step { msg [] with script := [.now { code := 0 }] }) (fun t => t.hsDone = false ∧ t.st = .init) = true := by
  decide
theorem witness_Observation : (base (.error .timeout) .run).st = .error .timeout ∧ (msg []).st = .waitForMessage := by
  decide
theorem witness_TimeRemaining :
    (msg []).deadline = none ∧ (hs [] 4999).deadline = some 5000 ∧ (hs [] 4999).now < 5000 ∧
      (hs [] 5000).deadline = some 5000 ∧ (5000 : Tick) ≤ (hs [] 5000).now := by decide
theorem witness_Reachable : Reachable (State.powerOn Params.test 7 []) := .powerOn _ _ _ test_tc_is_wf

theorem witness_Phrase :
    (hs [] 0).params.Wf ∧ (hs [] 0).st = .waitForHandshake ∧ (hs [] 0).ph = .run ∧ (hs [] 0).hsBuf = [] ∧
      (hs [] 0).tx = .idle ∧
      ({ hs [] 0 with script := rxMoves ((hs [] 0).params.handshakePhrase ++ [0x0A]) } : State).script =
        rxMoves ([0x48, 0x45, 0x4C, 0x4C, 0x4F] ++ [0x0A]) ++ [] := by decide
/-- The longest line that fits, in the conditions of `witness_Phrase`. -/
theorem witness_WrongLine :
    (0x0A : Byte) ∉ (List.replicate 15 0x41 : Bytes) ∧
      (List.replicate 15 0x41 : Bytes).length < (hs [] 0).params.hsCap ∧
      (List.replicate 15 0x41 : Bytes) ≠ (hs [] 0).params.handshakePhrase := by decide
/-- The longest payload that fits, and the empty one. -/
theorem witness_FrameBytes :
    (msg []).params.Wf ∧ (msg []).fb = [] ∧ (msg []).tx = .idle ∧
      plen (List.replicate 15 0 : Bytes).length + (List.replicate 15 0 : Bytes).length ≤ (msg []).params.fbCap ∧
      plen 0 + 0 ≤ (msg []).params.fbCap ∧
      ({ msg [] with script := rxMoves (varintEncode 0 ++ []) } : State).script = rxMoves (varintEncode 0 ++ []) ++ [] := by
  decide
theorem witness_AcceptedMessage :
    attempting.params.Wf ∧ attempting.ph = .awaitTx ∧ ([1, 2, 3] : Bytes) ≠ [] ∧
      attempting.tx = .busy [1, 2, 3] 0 100 (.ready true attempting.now) ∧
      List.replicate (nch attempting.params.maxPacket [1, 2, 3]) (Move.whenIdle { code := 6, x := 0 }) =
        [.whenIdle { code := 6, x := 0 }] := by decide
/-- The block before a framed EchoWrite. -/
theorem witness_BlockInv_empty (sc : List Move) : BlockInv { msg [] with script := sc } := by
  constructor <;>
    simp [msg, base, State.reset, State.powerOn, legalPair, BuffersBounded, DeadlineRule, ControlDataRule,
      Params.test, Params.Wf, decodeFrame, varintDecode, varintLoop]
/-- The same with a response buffer of 8 bytes, which "Echo: " and three bytes exceed. -/
theorem witness_BlockInv_small (sc : List Move) :
    BlockInv { msg [] with params := { Params.test with respCap := 8 }, script := sc } := by
  constructor <;>
    simp [msg, base, State.reset, State.powerOn, legalPair, BuffersBounded, DeadlineRule, ControlDataRule,
      Params.test, Params.Wf, decodeFrame, varintDecode, varintLoop]
/-- P1's "hi", and three bytes in the small buffer. -/
theorem witness_FramedEcho :
    ([0x68, 0x69] : Bytes).length ≤ Params.test.cmdCap ∧ plen 5 + 5 ≤ Params.test.fbCap ∧
      (Params.test.echoPrefix ++ [0x68, 0x69]).length ≤ Params.test.respCap ∧
      encodeFrame 32 (Params.test.echoPrefix ++ [0x68, 0x69]) =
        some [0x08, 0x45, 0x63, 0x68, 0x6F, 0x3A, 0x20, 0x68, 0x69] ∧
      decode (.event { code := 4, r := Params.test.echoPrefix ++ [0x68, 0x69] }) =
        .ok (.execOk (Params.test.echoPrefix ++ [0x68, 0x69])) ∧
      ¬ (Params.test.echoPrefix ++ [0x61, 0x62, 0x63]).length ≤ 8 ∧
      (encodeFrame 32 (errorMessage 32 .bufferProcessFailed [])).isSome = true ∧
      decode (.event { code := 5, k := 4 }) = .ok (.execErr .bufferProcessFailed []) := by decide
/-- `echo a`; `test_host_read` and `test_host_write` are the other two forms. -/
theorem witness_HostText : hostEncode [0x65, 0x63, 0x68, 0x6F, 0x20, 0x61] = some [0x01, 0x02, 0x61] := by decide

end Sys2Proof.Tests
end

section
/-! `TIME_REMAINING` (10_state.md R50): one equation per case of the deadline, and the obligation assembled from
them. -/

namespace Sys2Proof.Proofs
open Sys2Proof.Machine

theorem timeRemaining_of_no_deadline {s : State} (h : s.deadline = none) : s.timeRemaining = none := by
  simp [State.timeRemaining, h]

theorem timeRemaining_of_deadline {s : State} {d : Tick} (h : s.deadline = some d) :
    s.timeRemaining = if s.now < d then some (d - s.now) else some 0 := by
  simp [State.timeRemaining, h]

theorem timeRemaining_before_deadline {s : State} {d : Tick} (h : s.deadline = some d) (hlt : s.now < d) :
    s.timeRemaining = some (d - s.now) := by
  rw [timeRemaining_of_deadline h, if_pos hlt]

/-- The tick `now = d` belongs to this case. -/
theorem timeRemaining_from_deadline {s : State} {d : Tick} (h : s.deadline = some d) (hle : d ≤ s.now) :
    s.timeRemaining = some 0 := by
  rw [timeRemaining_of_deadline h, if_neg (BitVec.not_lt.mpr hle)]

/-- Settles O49, by the three cases of R50. -/
theorem timeRemaining : Obligations.TimeRemaining := fun _ =>
  ⟨timeRemaining_of_no_deadline, fun _ => timeRemaining_before_deadline, fun _ => timeRemaining_from_deadline⟩

end Sys2Proof.Proofs
end

section
/-! `cmd_decode` outside the dictionary (42_command_codec.md R211, R213): an unsupported selector is Unknown whatever
follows it, and a payload with no complete selector is BadOperands. -/

namespace Sys2Proof.Proofs
open Sys2Proof.Machine

theorem cmdDecode_of_not_supported {m o : Byte} (ops : Bytes) (h : ¬ supported m o) :
    cmdDecode (m :: o :: ops) = .error (.unknown m o) := by
  obtain ⟨hEcho, hReadWrite⟩ := not_or.1 h
  obtain ⟨hRead, hWrite⟩ := not_or.1 hReadWrite
  simp only [cmdDecode, selector_eq_echoWrite, selector_eq_i2cRead, selector_eq_i2cWrite, if_neg hEcho, if_neg hRead,
    if_neg hWrite]

theorem cmdDecode_of_length_lt_two {P : Bytes} (h : P.length < 2) : cmdDecode P = .error .badOperands :=
  match P with
  | [] => rfl
  | [_] => rfl
  | _ :: _ :: _ => absurd h (by simp)

theorem parsePayload_of_cmdDecode_error {cap : Nat} {P : Bytes} {e : CmdError} (h : cmdDecode P = .error e) :
    parsePayload cap P = .error (cmdErrorKind e) := by
  simp only [parsePayload, h]

/-- Settles O3, by the three selectors of the dictionary, none of which an unsupported pair names, and by the length
of a payload with no selector. -/
theorem selectorIsCheckedBeforeOperands : Obligations.SelectorIsCheckedBeforeOperands :=
  ⟨fun _ _ ops h =>
      have hd := cmdDecode_of_not_supported ops h
      ⟨hd, fun _ => parsePayload_of_cmdDecode_error hd⟩,
    fun _ => cmdDecode_of_length_lt_two⟩

end Sys2Proof.Proofs
end

section
/-! `CTRL`'s transition table (40_machine_step.md R154): the pair that a selector names, the rows of the decoder as an
equivalence, and the obligation assembled from them. -/

namespace Sys2Proof.Proofs
open Sys2Proof.Machine

theorem frameResult_cls_eq_frame {r : FrameResult} : r.cls = .frame ↔ ∃ f, r = .frame f := by
  cases r <;> simp [FrameResult.cls]

theorem frameResult_cls_eq_malformed {r : FrameResult} : r.cls = .malformed ↔ r = .malformed := by
  cases r <;> simp [FrameResult.cls]

theorem phaseCode_eq_iff {p q : Phase} : p.code = q.code ↔ p = q := by
  cases p <;> cases q <;> decide

theorem stateCode_eq_iff {x y : SystemState} (hy : ∀ k, y ≠ .error k) : x.code = y.code ↔ x = y := by
  cases y <;> cases x <;> simp_all [SystemState.code]

theorem stateCode_eq_error_iff {x : SystemState} {k : ErrorKind} :
    x.code = (SystemState.error k).code ↔ ∃ k', x = .error k' := by
  cases x <;> simp [SystemState.code]

theorem controlCodes_toNat (c : BitVec 3) (p : BitVec 2) : (c ++ p).toNat = c.toNat * 4 + p.toNat := by
  rw [BitVec.toNat_append, ← Nat.shiftLeft_add_eq_or_of_lt p.isLt, Nat.shiftLeft_eq]

/-- The selector names the phase and, up to the kind of an error, the state (R34, R119). -/
theorem controlSelector_eq_append_iff {s : State} {x : SystemState} {p : Phase} :
    s.controlSelector = x.code ++ p.code ↔ s.st.code = x.code ∧ s.ph = p := by
  rw [← phaseCode_eq_iff, State.controlSelector]
  refine ⟨fun h => ?_, fun ⟨hst, hph⟩ => by rw [hst, hph]⟩
  have h := congrArg BitVec.toNat h
  rw [controlCodes_toNat, controlCodes_toNat] at h
  constructor <;> bv_omega

/-- A selector of a state other than an error names its pair. -/
theorem controlSelector_eq_iff {s : State} (sel : BitVec 5) (x : SystemState) (p : Phase)
    (hsel : sel = x.code ++ p.code) (hx : ∀ k, x ≠ .error k) : s.controlSelector = sel ↔ s.st = x ∧ s.ph = p := by
  rw [hsel, controlSelector_eq_append_iff, stateCode_eq_iff hx]

theorem controlSelector_eq_error_iff {s : State} (sel : BitVec 5) (k : ErrorKind) (p : Phase)
    (hsel : sel = (SystemState.error k).code ++ p.code) :
    s.controlSelector = sel ↔ (∃ k', s.st = .error k') ∧ s.ph = p := by
  rw [hsel, controlSelector_eq_append_iff, stateCode_eq_error_iff]

theorem decodeInternal_eq_ok_iff {sel : BitVec 5} {cls : FrameClass} {i : Instr} :
    decodeInternal sel cls = .ok i ↔
      (sel = 0b00000 ∧ i = .init) ∨ (sel = 0b00101 ∧ i = .handshakeResponseDone) ∨
        (sel = 0b01000 ∧ cls = .frame ∧ i = .frameReady) ∨
        (sel = 0b01000 ∧ cls = .malformed ∧ i = .frameMalformed) ∨ (sel = 0b01100 ∧ i = .parseCommand) ∨
        (sel = 0b10000 ∧ i = .executeActionStart) ∨ (sel = 0b10100 ∧ i = .sendResponseStart) ∨
        (sel = 0b10101 ∧ i = .responseSent) ∨ (sel = 0b11000 ∧ i = .errorAction) ∨
        (sel = 0b11001 ∧ i = .errorResolve) := by
  refine ⟨decodeInternal_eq_ok, ?_⟩
  rintro (⟨rfl, rfl⟩ | ⟨rfl, rfl⟩ | ⟨rfl, rfl, rfl⟩ | ⟨rfl, rfl, rfl⟩ | ⟨rfl, rfl⟩ | ⟨rfl, rfl⟩ | ⟨rfl, rfl⟩ |
    ⟨rfl, rfl⟩ | ⟨rfl, rfl⟩ | ⟨rfl, rfl⟩) <;> rfl

/-- Settles O42: the decoder's row of the pair, which in AwaitTx the table and the machine both give only when `tx` is
Done. No pair outside R32 has a row, so the legality of the pair is not needed. -/
theorem controlTransitionTable : Obligations.ControlTransitionTable := by
  intro s i _
  simp only [controlTransition_eq_some, decodeInternal_eq_ok_iff, txState_code_done, frameResult_cls_eq_frame,
    frameResult_cls_eq_malformed, and_assoc,
    controlSelector_eq_iff 0b00000 .init .run rfl nofun,
    controlSelector_eq_iff 0b00101 .waitForHandshake .awaitTx rfl nofun,
    controlSelector_eq_iff 0b01000 .waitForMessage .run rfl nofun,
    controlSelector_eq_iff 0b01100 .parseCommand .run rfl nofun,
    controlSelector_eq_iff 0b10000 .executeAction .run rfl nofun,
    controlSelector_eq_iff 0b10100 .sendResponse .run rfl nofun,
    controlSelector_eq_iff 0b10101 .sendResponse .awaitTx rfl nofun,
    controlSelector_eq_error_iff 0b11000 .timeout .run rfl,
    controlSelector_eq_error_iff 0b11001 .timeout .awaitTx rfl]
  cases s.ph with
  | run => simp
  | awaitTx => by_cases hdone : ∃ ok, s.tx = .done ok <;> simp [hdone, -Bool.exists_bool]
  | awaitExec => simp

end Sys2Proof.Proofs
end

section
/-! The chunks of a message (43_write_retry.md R253) and what the transport's Ok and Err do with them (R255, R257). -/

namespace Sys2Proof.Proofs
open Sys2Proof.Machine

variable {mp : Nat} {m : Bytes}

/-- `nch` is the ceiling of R253: the least number of chunks that covers the message. -/
theorem nch_le_iff (h : 1 ≤ mp) (n : Nat) : nch mp m ≤ n ↔ m.length ≤ n * mp := by
  rw [nch, ← Nat.ceilDiv_eq_add_pred_div, ceilDiv_le_iff_le_mul h, Nat.mul_comm]

/-- A chunk exists exactly when its first byte lies inside the message. -/
theorem lt_nch_iff (h : 1 ≤ mp) (i : Nat) : i < nch mp m ↔ i * mp < m.length := by
  simpa only [Nat.not_le] using not_congr (nch_le_iff h i)

theorem chunk_length (i : Nat) : (chunk mp m i).length = min mp (m.length - i * mp) := by
  rw [chunk, List.length_take, List.length_drop]

/-- The chunk's last bound, beyond the message or not, can be cut to the message's length. -/
theorem chunk_eq_take_range (i : Nat) :
    chunk mp m i = (m.drop (i * mp)).take (min ((i + 1) * mp) m.length - i * mp) := by
  have hbound : min ((i + 1) * mp) m.length - i * mp = min mp (m.drop (i * mp)).length := by
    rw [List.length_drop, Nat.succ_mul]
    omega
  rw [hbound, ← List.take_eq_take_min, chunk]

/-- The first `n` chunks in order are the message up to the end of the last of them. -/
theorem flatMap_chunk_range (n : Nat) : (List.range n).flatMap (chunk mp m) = m.take (n * mp) := by
  induction n with
  | zero => simp
  | succ n ih =>
    rw [List.range_succ, List.flatMap_append, ih, List.flatMap_singleton, chunk, Nat.succ_mul, List.take_add]

theorem flatMap_chunk (h : 1 ≤ mp) : (List.range (nch mp m)).flatMap (chunk mp m) = m := by
  rw [flatMap_chunk_range, List.take_of_length_le ((nch_le_iff h _).1 le_rfl)]

/-- A chunk with another after it is full. -/
theorem chunk_length_of_not_last (h : 1 ≤ mp) {i : Nat} (hi : i + 1 < nch mp m) : (chunk mp m i).length = mp := by
  have hnext := (lt_nch_iff h (i + 1)).1 hi
  rw [Nat.succ_mul] at hnext
  rw [chunk_length]
  omega

theorem chunk_length_pos (h : 1 ≤ mp) {i : Nat} (hi : i < nch mp m) : 1 ≤ (chunk mp m i).length := by
  have hfirst := (lt_nch_iff h i).1 hi
  rw [chunk_length]
  omega

theorem chunk_length_le (i : Nat) : (chunk mp m i).length ≤ mp := List.length_take_le ..

/-- Settles O14: the ceiling, the joined chunks by induction on their number, and each chunk's range and length. -/
theorem chunksMakeUpTheMessage : Obligations.ChunksMakeUpTheMessage := fun _ _ h =>
  ⟨nch_le_iff h, flatMap_chunk h, fun i _ => chunk_eq_take_range i, fun _ => chunk_length_of_not_last h,
    fun i hlast => ⟨chunk_length_pos h (hlast ▸ Nat.lt_succ_self i), chunk_length_le i⟩⟩

/-- Settles O23: an awaiting engine accepts both results. -/
theorem transportOkAndErr : Obligations.TransportOkAndErr := fun _ msg ci t0 h =>
  ⟨execTxResultOk_eq_next.2 ⟨msg, ci, t0, h, rfl⟩, execTxResultErr_eq_next.2 ⟨msg, ci, t0, h, rfl⟩⟩

end Sys2Proof.Proofs
end

section
/-! The Init transition (44_handshake.md R281): leaving Init is a change of the control state, so arming the deadline
comes with a status write. -/

namespace Sys2Proof.Proofs
open Sys2Proof.Machine

theorem armDeadline_setSt_waitForHandshake_of_init {s : State} (h : s.st = .init) :
    s.armDeadline.setSt .waitForHandshake =
      { s with
        deadline := some (satAdd s.now s.params.hsTimeout)
        st := .waitForHandshake
        status := some (patternOf s.params.patternOf .waitForHandshake)
        trace := s.trace ++ [.statusWrite (patternOf s.params.patternOf .waitForHandshake)] } := by
  have hchange : SystemState.waitForHandshake ≠ s.armDeadline.st := by simp [h]
  exact State.setSt_of_ne s.armDeadline .waitForHandshake hchange

/-- Settles O27: the transition is enabled, and its two writes change the fields R281 names. -/
theorem initArmsTheDeadline : Obligations.InitArmsTheDeadline := fun _ hst hph =>
  execInit_eq_next.2 ⟨hst, hph, (armDeadline_setSt_waitForHandshake_of_init hst).symm⟩

end Sys2Proof.Proofs
end

section
/-! The two ends of a frame's reassembly (45_message_pipeline.md R313, R314): both leave WaitForMessage, so each comes
with a status write, and the phase is Run already, so taking the error keeps it. -/

namespace Sys2Proof.Proofs
open Sys2Proof.Machine

theorem raise_of_run_of_ne (k : ErrorKind) (s : State) (hph : s.ph = .run) (hne : s.st ≠ .error k) :
    raise k s =
      { s with
        st := .error k
        status := some (patternOf s.params.patternOf (.error k))
        trace := s.trace ++ [.statusWrite (patternOf s.params.patternOf (.error k))] } := by
  rw [raise_of_ne k s hne, hph]

/-- Settles O29: a frame and malformed data enable their transitions, and the control state changes in both. -/
theorem frameReadyAndMalformed : Obligations.FrameReadyAndMalformed := by
  intro s hst hph
  constructor
  · intro f hframe
    have hchange : SystemState.parseCommand ≠ s.st := by simp [hst]
    have hnext := State.setSt_of_ne { s with fr := some f } .parseCommand hchange
    exact execFrameReady_eq_next.2 ⟨hst, hph, f, hframe, hnext.symm⟩
  · intro hmalformed
    have hchange : s.st ≠ .error .invalidChecksum := by simp [hst]
    have hnext := raise_of_run_of_ne .invalidChecksum { s with fb := [] } hph hchange
    exact execFrameMalformed_eq_next.2 ⟨hst, hph, hmalformed, hnext.symm⟩

end Sys2Proof.Proofs
end

section
/-! `Reset` (70_reset_and_hazards.md R400): the ten plain writes leave `st`, `status` and the transcript alone, so the
control state's own write to Init sees their old values. -/

namespace Sys2Proof.Proofs
open Sys2Proof.Machine

theorem setSt_eq_update (s : State) (x : SystemState) :
    s.setSt x =
      { s with
        st := x
        status := if s.st = x then s.status else some (patternOf s.params.patternOf x)
        trace := if s.st = x then s.trace else s.trace ++ [.statusWrite (patternOf s.params.patternOf x)] } := by
  by_cases hsame : s.st = x
  · subst hsame
    rw [State.setSt_self, if_pos rfl, if_pos rfl]
  · rw [State.setSt_of_ne s x (Ne.symm hsame), if_neg hsame, if_neg hsame]

/-- Settles O17: Reset answers in every state, and its last write goes to Init, with `status` written exactly when that
changes `st`. -/
theorem resetReturnsEverythingToInit : Obligations.ResetReturnsEverythingToInit := by
  intro s
  have hanswer : exec .reset s = .next _ := execReset_eq_next.2 rfl
  rw [hanswer, setSt_eq_update]

end Sys2Proof.Proofs
end

section
/-! The length header of a frame (41_framing.md R181 to R184): the loop over the two shapes a header can have, groups
that continue followed by one that ends it, or by a fifth that overflows; and the header that the encoder writes. -/

namespace Sys2Proof.Proofs
open Sys2Proof.Machine

/-- The length that a header spells: its 7-bit groups, least significant first (30_encoding.md R104). -/
def prefixValue (groups : Bytes) : Nat := groups.foldr (fun c more => c.toNat % 128 + 128 * more) 0

@[simp] theorem prefixValue_cons (c : Byte) (cs : Bytes) :
    prefixValue (c :: cs) = c.toNat % 128 + 128 * prefixValue cs := rfl

theorem varintLoop_cons_of_continues {j L : Nat} {c : Byte} (s : Bytes) (hj : j < 4) (hc : 128 ≤ c.toNat) :
    varintLoop j L (c :: s) = varintLoop (j + 1) (L + c.toNat % 128 * 2 ^ (7 * j)) s := by
  rw [varintLoop_cons, if_neg (by omega), if_neg (by omega)]

theorem varintLoop_groups {cs : Bytes} {b : Byte} (x : Bytes) (hcs : ∀ c ∈ cs, 128 ≤ c.toNat) (hb : b.toNat < 128) :
    ∀ {j : Nat} (L : Nat), j + cs.length ≤ 4 → (j + cs.length = 4 → b.toNat < 16) →
      varintLoop j L (cs ++ b :: x) = .len (L + prefixValue (cs ++ [b]) * 2 ^ (7 * j)) (j + cs.length + 1) := by
  induction cs with
  | nil =>
    intro j L _ hfifth
    have hfifth : ¬ (j = 4 ∧ 16 ≤ b.toNat) := fun ⟨hj, h16⟩ => absurd (hfifth (by simpa using hj)) (by omega)
    rw [List.nil_append, varintLoop_cons, if_neg hfifth, if_pos hb]
    simp [prefixValue]
  | cons c cs ih =>
    intro j L hlen hfifth
    simp only [List.length_cons] at hlen hfifth
    have hpow : 2 ^ (7 * (j + 1)) = 128 * 2 ^ (7 * j) := by rw [Nat.mul_succ, Nat.pow_add, Nat.mul_comm]
    rw [List.cons_append, varintLoop_cons_of_continues _ (by omega) (hcs c List.mem_cons_self),
      ih (fun d hd => hcs d (List.mem_cons_of_mem c hd)) _ (by omega) (fun h => hfifth (by omega)), hpow]
    simp only [List.cons_append, prefixValue_cons, List.length_cons, LenResult.len.injEq]
    constructor
    · ring
    · omega

/-- A length found is found whatever follows, in one to five bytes of which the first `p` are enough. -/
theorem varintLoop_eq_len {s : Bytes} {n p : Nat} : ∀ {j L : Nat}, varintLoop j L s = .len n p → j ≤ 4 →
    j < p ∧ p ≤ 5 ∧ p ≤ j + s.length ∧ ∀ x, varintLoop j L (s.take (p - j) ++ x) = .len n p := by
  induction s with
  | nil => intro j L h; simp at h
  | cons b s ih =>
    intro j L h hj
    rw [varintLoop_cons] at h
    split at h
    · cases h
    · rename_i hfifth
      split at h
      · rename_i hb
        cases h
        refine ⟨by omega, by omega, by simp, fun x => ?_⟩
        rw [Nat.add_sub_cancel_left, List.take_succ_cons, List.take_zero, List.cons_append, varintLoop_cons,
          if_neg hfifth, if_pos hb]
      · rename_i hb
        obtain ⟨hlt, hle, hlen, hread⟩ := ih h (by omega)
        refine ⟨by omega, hle, by simp only [List.length_cons]; omega, fun x => ?_⟩
        have htake : p - j = (p - (j + 1)) + 1 := by omega
        rw [htake, List.take_succ_cons, List.cons_append, varintLoop_cons, if_neg hfifth, if_neg hb, hread]

theorem varintLoop_eq_malformed {s : Bytes} : ∀ {j L : Nat}, j ≤ 4 →
    (varintLoop j L s = .malformed ↔
      ∃ cs b x, s = cs ++ b :: x ∧ j + cs.length = 4 ∧ (∀ c ∈ cs, 128 ≤ c.toNat) ∧ 16 ≤ b.toNat) := by
  induction s with
  | nil => simp
  | cons b s ih =>
    intro j L hj
    rw [varintLoop_cons]
    split
    · rename_i h
      exact iff_of_true rfl ⟨[], b, s, rfl, by simpa using h.1, by simp, h.2⟩
    · rename_i hfifth
      split
      · rename_i hb
        refine iff_of_false nofun ?_
        rintro ⟨_ | ⟨c, cs⟩, b', x, hs, hlen, hcs, hb'⟩
        · obtain ⟨rfl, rfl⟩ := List.cons.inj hs
          exact hfifth ⟨hlen, hb'⟩
        · obtain ⟨rfl, rfl⟩ := List.cons.inj hs
          exact hb.not_ge (List.forall_mem_cons.1 hcs).1
      · rename_i hb
        rw [ih (by omega)]
        constructor
        · rintro ⟨cs, b', x, rfl, hlen, hcs, hb'⟩
          exact ⟨b :: cs, b', x, rfl, by simp only [List.length_cons]; omega,
            List.forall_mem_cons.2 ⟨by omega, hcs⟩, hb'⟩
        · rintro ⟨_ | ⟨c, cs⟩, b', x, hs, hlen, hcs, hb'⟩
          · obtain ⟨rfl, rfl⟩ := List.cons.inj hs
            exact absurd ⟨hlen, hb'⟩ hfifth
          · obtain ⟨rfl, rfl⟩ := List.cons.inj hs
            rw [List.length_cons] at hlen
            exact ⟨cs, b', x, rfl, by omega, (List.forall_mem_cons.1 hcs).2, hb'⟩

theorem varintDecode_groups {cs : Bytes} {b : Byte} (x : Bytes) (hlen : cs.length ≤ 4)
    (hcs : ∀ c ∈ cs, 128 ≤ c.toNat) (hb : b.toNat < 128) (hfifth : cs.length = 4 → b.toNat < 16) :
    varintDecode (cs ++ b :: x) = .len (prefixValue (cs ++ [b])) (cs.length + 1) := by
  have h := varintLoop_groups x hcs hb (j := 0) 0 (by omega) (fun h => hfifth (by omega))
  simpa [varintDecode] using h

/-! ### The encoder's header -/

/-- What R182's loop writes: at most `fuel` groups that continue and one that ends, which spell the number; the last
group is within the number's size. -/
theorem varintGroups_spells {fuel : Nat} : ∀ {n : Nat}, n < 128 ^ (fuel + 1) →
    ∃ cs b, varintGroups (fuel + 1) n = cs ++ [b] ∧ cs.length ≤ fuel ∧ (∀ c ∈ cs, 128 ≤ c.toNat) ∧ b.toNat < 128 ∧
      prefixValue (cs ++ [b]) = n ∧ b.toNat * 128 ^ cs.length ≤ n := by
  induction fuel with
  | zero =>
    intro n hn
    have hn : n < 128 := by simpa using hn
    have hb : (BitVec.ofNat 8 n).toNat = n := Nat.mod_eq_of_lt (by omega)
    refine ⟨[], BitVec.ofNat 8 n, ?_, by simp, by simp, by omega, ?_, by simp [hb]⟩
    · simp [varintGroups, Nat.div_eq_of_lt hn, Nat.mod_eq_of_lt hn]
    · simp [prefixValue, hb]; omega
  | succ fuel ih =>
    intro n hn
    rw [varintGroups]
    split
    · have hn : n < 128 := by omega
      have hb : (BitVec.ofNat 8 n).toNat = n := Nat.mod_eq_of_lt (by omega)
      refine ⟨[], BitVec.ofNat 8 n, by simp [Nat.mod_eq_of_lt hn], by simp, by simp, by omega, ?_, by simp [hb]⟩
      simp [prefixValue, hb]; omega
    · obtain ⟨cs, b, hgroups, hlen, hcs, hb, hval, hlast⟩ := ih (n := n / 128) (by rw [Nat.pow_succ] at hn; omega)
      have hc : (BitVec.ofNat 8 (n % 128 + 128)).toNat = n % 128 + 128 := Nat.mod_eq_of_lt (by omega)
      refine ⟨BitVec.ofNat 8 (n % 128 + 128) :: cs, b, by rw [hgroups, List.cons_append], ?_, ?_, hb, ?_, ?_⟩
      · simp only [List.length_cons]; omega
      · exact List.forall_mem_cons.2 ⟨by omega, hcs⟩
      · rw [List.cons_append, prefixValue_cons, hval, hc]; omega
      · rw [List.length_cons, Nat.pow_succ, ← Nat.mul_assoc]; omega

/-- The header of `n` decodes to `n`, whatever follows it (R184). -/
theorem varintDecode_varintEncode {n : Nat} (hn : n < 2 ^ 32) (x : Bytes) :
    varintDecode (varintEncode n ++ x) = .len n (plen n) := by
  obtain ⟨cs, b, hgroups, hlen, hcs, hb, hval, hlast⟩ := varintGroups_spells (fuel := 4) (n := n) (by omega)
  have henc : varintEncode n = cs ++ [b] := hgroups
  have hfifth : cs.length = 4 → b.toNat < 16 := by
    intro h4
    rw [h4] at hlast
    omega
  rw [plen, henc, List.append_assoc, List.singleton_append, varintDecode_groups x hlen hcs hb hfifth, hval,
    List.length_append, List.length_singleton]

theorem plen_eq (n : Nat) :
    plen n =
      if n < 2 ^ 7 then 1 else if n < 2 ^ 14 then 2 else if n < 2 ^ 21 then 3 else if n < 2 ^ 28 then 4 else 5 := by
  have hzero (k : Nat) (hk : 0 < k) : n / k = 0 ↔ n < k := Nat.div_eq_zero_iff_lt hk
  simp only [plen, varintEncode, varintGroups, Nat.div_div_eq_div_mul]
  norm_num only [hzero]
  split_ifs <;> rfl

end Sys2Proof.Proofs
end

section
/-! The frame codec (41_framing.md R185 to R191): decoding reads a header and is stable under more bytes, a frame lies
inside the buffer, and decode and encode agree up to MAX_TX_PAYLOAD. -/

namespace Sys2Proof.Proofs
open Sys2Proof.Machine

theorem decodeFrame_of_varintDecode {s : Bytes} {L p : Nat} (h : varintDecode s = .len L p) :
    decodeFrame s = if s.length < p + L then .needMoreData else .frame ⟨p, L, p + L⟩ := by
  simp only [decodeFrame, h]

/-- Settles O7, by the encoder's header as groups that spell the number, and the decoder's loop on any groups. -/
theorem lengthPrefixRoundTrip : Obligations.LengthPrefixRoundTrip := by
  refine ⟨fun n hn => ⟨varintDecode_varintEncode hn, plen_eq n⟩, ?_⟩
  intro cs b x L hlen hcs hb hfifth hL
  have hdecode : varintDecode (cs ++ b :: x) = .len L (cs.length + 1) :=
    hL ▸ varintDecode_groups x hlen hcs hb hfifth
  refine ⟨hdecode, ?_⟩
  have hshort : (cs ++ b :: x).length < cs.length + 1 + L ↔ x.length < L := by simp; omega
  simp only [decodeFrame_of_varintDecode hdecode, hshort]

theorem decodeFrame_append_of_frame {s : Bytes} {f : FrameDesc} (x : Bytes) (h : decodeFrame s = .frame f) :
    decodeFrame (s ++ x) = .frame f := by
  obtain ⟨L, p, hprefix, hlen, rfl⟩ := decodeFrame_eq_frame.1 h
  obtain ⟨-, -, hp, hread⟩ := varintLoop_eq_len hprefix (by omega)
  refine decodeFrame_eq_frame.2 ⟨L, p, ?_, by rw [List.length_append]; omega, rfl⟩
  have hsplit : s ++ x = s.take (p - 0) ++ (s.drop p ++ x) := by simp [← List.append_assoc]
  rw [hsplit]
  exact hread _

theorem decodeFrame_append_of_malformed {s : Bytes} (x : Bytes) (h : decodeFrame s = .malformed) :
    decodeFrame (s ++ x) = .malformed := by
  rw [decodeFrame_eq_malformed] at h ⊢
  obtain ⟨cs, b, y, rfl, hlen, hcs, hb⟩ := (varintLoop_eq_malformed (by omega)).1 h
  exact (varintLoop_eq_malformed (by omega)).2 ⟨cs, b, y ++ x, by simp, hlen, hcs, hb⟩

theorem decodeFrame_needMoreData_of_append {s x : Bytes} (h : decodeFrame (s ++ x) = .needMoreData) :
    decodeFrame s = .needMoreData := by
  cases hs : decodeFrame s with
  | needMoreData => rfl
  | malformed => rw [decodeFrame_append_of_malformed x hs] at h; cases h
  | frame f => rw [decodeFrame_append_of_frame x hs] at h; cases h

/-- Settles O8, by what the leading bytes already decide. -/
theorem decodeIsStableUnderMoreBytes : Obligations.DecodeIsStableUnderMoreBytes := fun _ x =>
  ⟨fun _ => decodeFrame_append_of_frame x, decodeFrame_append_of_malformed x, decodeFrame_needMoreData_of_append⟩

theorem decodeFrame_bounds {s : Bytes} {f : FrameDesc} (h : decodeFrame s = .frame f) :
    f.off + f.plen = f.consumed ∧ f.consumed ≤ s.length ∧ 1 ≤ f.off ∧ f.off ≤ 5 := by
  obtain ⟨L, p, hprefix, hlen, rfl⟩ := decodeFrame_eq_frame.1 h
  obtain ⟨hpos, hfive, -, -⟩ := varintLoop_eq_len hprefix (by omega)
  exact ⟨rfl, hlen, hpos, hfive⟩

theorem decodeFrame_take_consumed {s : Bytes} {f : FrameDesc} (h : decodeFrame s = .frame f) :
    decodeFrame (s.take f.consumed) = .frame f := by
  obtain ⟨L, p, hprefix, hlen, rfl⟩ := decodeFrame_eq_frame.1 h
  obtain ⟨-, -, -, hread⟩ := varintLoop_eq_len hprefix (by omega)
  refine decodeFrame_eq_frame.2 ⟨L, p, ?_, by simp only [List.length_take]; omega, rfl⟩
  rw [List.take_add]
  exact hread _

/-- Settles O9, by the header's loop, which stops within five bytes and reads none after its last. -/
theorem decodeReadsOnlyTheFrame : Obligations.DecodeReadsOnlyTheFrame := by
  intro s f h
  obtain ⟨hsize, hinside, hpos, hfive⟩ := decodeFrame_bounds h
  exact ⟨hsize, hinside, hpos, hfive, decodeFrame_take_consumed h⟩

/-- A frame that the last byte completes ends with it (R317). -/
theorem decodeFrame_append_singleton {s : Bytes} {b : Byte} {f : FrameDesc} (hs : decodeFrame s = .needMoreData)
    (h : decodeFrame (s ++ [b]) = .frame f) : f.consumed = (s ++ [b]).length := by
  obtain ⟨-, hinside, -, -⟩ := decodeFrame_bounds h
  rw [List.length_append, List.length_singleton] at hinside ⊢
  by_contra hne
  have htake := decodeFrame_take_consumed h
  rw [List.take_append_of_le_length (by omega)] at htake
  have hearly := decodeFrame_append_of_frame (s.drop f.consumed) htake
  rw [List.take_append_drop, hs] at hearly
  cases hearly

/-- Settles O10: the loop ends in Malformed only at its fifth byte. -/
theorem malformedIsTheFifthPrefixByte : Obligations.MalformedIsTheFifthPrefixByte := by
  intro s
  rw [decodeFrame_eq_malformed, varintDecode, varintLoop_eq_malformed (by omega)]
  constructor
  · rintro ⟨cs, b4, x, rfl, hlen, hcs, hb⟩
    obtain ⟨b0, b1, b2, b3, rfl⟩ := List.length_eq_four.1 ((Nat.zero_add _).symm.trans hlen)
    simp only [List.forall_mem_cons] at hcs
    obtain ⟨h0, h1, h2, h3, -⟩ := hcs
    exact ⟨b0, b1, b2, b3, b4, x, rfl, h0, h1, h2, h3, hb⟩
  · rintro ⟨b0, b1, b2, b3, b4, x, rfl, h0, h1, h2, h3, h4⟩
    exact ⟨[b0, b1, b2, b3], b4, x, rfl, rfl, by simp [h0, h1, h2, h3], h4⟩

/-- The frame of a payload and what follows it. -/
theorem decodeFrame_frame_append {P : Bytes} (hP : P.length < 2 ^ 32) (x : Bytes) :
    decodeFrame (varintEncode P.length ++ P ++ x) =
      .frame ⟨plen P.length, P.length, (varintEncode P.length ++ P).length⟩ := by
  refine decodeFrame_eq_frame.2 ⟨P.length, plen P.length, ?_, ?_, ?_⟩
  · rw [List.append_assoc, varintDecode_varintEncode hP]
  · simp only [List.length_append, plen]; omega
  · rw [List.length_append, plen]

theorem memRead_frame_append (P x : Bytes) :
    memRead (varintEncode P.length ++ P ++ x) (plen P.length) P.length = some P :=
  memRead_eq_some.2 ⟨by simp only [List.length_append, plen]; omega, by
    rw [List.append_assoc, plen, List.drop_left, List.take_left]⟩

/-- Settles O11: the header decodes to the payload's length, and what it bounds is the payload. -/
theorem frameRoundTrip : Obligations.FrameRoundTrip := by
  intro cap P F x h
  obtain ⟨hP, -, rfl⟩ := encodeFrame_eq_some.1 h
  exact ⟨decodeFrame_frame_append hP x, memRead_frame_append P x,
    compact_eq_some.2 ⟨by simp, List.drop_left.symm⟩⟩

/-! ### MAX_TX_PAYLOAD (R190) -/

theorem fitsFrame_iff {cap n : Nat} : fitsFrame cap n = true ↔ n < 2 ^ 32 ∧ plen n + n ≤ cap := by
  simp [fitsFrame]

theorem plen_mono {m n : Nat} (h : m ≤ n) : plen m ≤ plen n := by
  rw [plen_eq, plen_eq]
  split_ifs <;> omega

theorem fitsFrame_of_le {cap m n : Nat} (h : m ≤ n) (hn : fitsFrame cap n = true) : fitsFrame cap m = true := by
  rw [fitsFrame_iff] at hn ⊢
  have := plen_mono h
  omega

theorem le_greatestFit_iff {cap n : Nat} (hcap : 1 ≤ cap) (N : Nat) :
    n ≤ greatestFit cap N ↔ n ≤ N ∧ fitsFrame cap n = true := by
  have hzero : fitsFrame cap 0 = true := fitsFrame_iff.2 ⟨by omega, hcap⟩
  induction N with
  | zero =>
    rw [greatestFit]
    exact ⟨fun h => ⟨h, Nat.le_zero.1 h ▸ hzero⟩, And.left⟩
  | succ N ih =>
    rw [greatestFit]
    split
    · rename_i hfits
      exact ⟨fun h => ⟨h, fitsFrame_of_le h hfits⟩, And.left⟩
    · rename_i hnot
      refine ih.trans (and_congr_left fun hn => ⟨Nat.le_succ_of_le, fun h => Nat.le_of_lt_succ (lt_of_le_of_ne h ?_)⟩)
      rintro rfl
      exact hnot hn

theorem le_maxTxPayload_iff {cap n : Nat} (hcap : 1 ≤ cap) :
    n ≤ maxTxPayload cap ↔ n < 2 ^ 32 ∧ plen n + n ≤ cap := by
  rw [maxTxPayload, le_greatestFit_iff hcap, fitsFrame_iff]
  omega

theorem exists_encodeFrame_iff {cap : Nat} {P : Bytes} (hcap : 1 ≤ cap) :
    (∃ F, encodeFrame cap P = some F) ↔ P.length ≤ maxTxPayload cap := by
  simp only [encodeFrame_eq_some, le_maxTxPayload_iff hcap, List.length_append, plen, exists_and_left,
    exists_eq, and_true]

theorem length_le_of_encodeFrame {cap : Nat} {P F : Bytes} (h : encodeFrame cap P = some F) : F.length ≤ cap := by
  obtain ⟨-, hfits, rfl⟩ := encodeFrame_eq_some.1 h
  exact hfits

theorem ne_nil_of_encodeFrame {cap : Nat} {P F : Bytes} (h : encodeFrame cap P = some F) : F ≠ [] := by
  obtain ⟨-, -, rfl⟩ := encodeFrame_eq_some.1 h
  exact List.append_ne_nil_of_left_ne_nil (varintEncode_ne_nil _) P

/-- Settles O12: a shorter payload fits where a longer one does, so the bound is met exactly by what fits. -/
theorem encodeSucceedsUpToMaxPayload : Obligations.EncodeSucceedsUpToMaxPayload := by
  intro cap P hcap
  refine ⟨exists_encodeFrame_iff hcap, fun F h => ⟨?_, length_le_of_encodeFrame h⟩⟩
  obtain ⟨-, -, hF⟩ := encodeFrame_eq_some.1 h
  exact hF

end Sys2Proof.Proofs
end

section
/-! The error message (60_exceptions.md R356, R362): with `TX_CAP ≥ 25` every base fits, so the message always encodes
and loses only bytes of its tail. -/

namespace Sys2Proof.Proofs
open Sys2Proof.Machine

theorem errorBase_length_le (k : ErrorKind) : (errorBase k).length ≤ 24 := by
  rw [errorBase_length]
  cases k <;> decide

theorem errorBase_prefix_errorFull (k : ErrorKind) (resp : Bytes) : errorBase k <+: errorFull k resp := by
  rw [errorFull]
  split
  · exact List.prefix_rfl
  · rw [List.append_assoc]
    exact List.prefix_append ..

/-- R10 asks for 25 bytes of `TX_CAP`: a header of one byte and the longest base. -/
theorem base_le_maxTxPayload {cap : Nat} (hcap : 25 ≤ cap) : 24 ≤ maxTxPayload cap :=
  (le_maxTxPayload_iff (by omega)).2 ⟨by omega, by rw [plen_eq, if_pos (by omega)]; omega⟩

theorem errorMessage_encodes {cap : Nat} (hcap : 25 ≤ cap) (k : ErrorKind) (resp : Bytes) :
    ∃ F, encodeFrame cap (errorMessage cap k resp) = some F :=
  (exists_encodeFrame_iff (by omega)).2 (List.length_take_le ..)

/-- Settles O16, by the bound on the bases and the cut at MAX_TX_PAYLOAD. -/
theorem errorMessageAlwaysEncodes : Obligations.ErrorMessageAlwaysEncodes := by
  intro p k resp hwf
  obtain ⟨-, -, -, -, -, hcap, -⟩ := hwf
  have hbase : (errorBase k).length ≤ maxTxPayload p.txCap :=
    (errorBase_length_le k).trans (base_le_maxTxPayload hcap)
  exact ⟨errorMessage_encodes hcap k resp,
    List.prefix_take_iff.2 ⟨errorBase_prefix_errorFull k resp, hbase⟩, List.take_prefix ..⟩

/-- Starting a framed message with the engine idle. -/
theorem emit_frame {cap : Nat} {P F : Bytes} {s : State} (hF : encodeFrame cap P = some F) (hidle : s.tx = .idle) :
    emit F s = .next { s with tx := .busy F 0 s.now (.ready true s.now), ph := .awaitTx } :=
  emit_eq_next.2 ⟨hidle, by rw [startTx_of_ne_nil (ne_nil_of_encodeFrame hF)]⟩

/-- Settles O35: the message encodes, and its frame is not empty, so the engine is busy with it. -/
theorem errorActionSendsTheMessage : Obligations.ErrorActionSendsTheMessage := by
  intro s k hwf hst hph hidle
  obtain ⟨-, -, -, -, -, hcap, -⟩ := hwf
  obtain ⟨F, hF⟩ := errorMessage_encodes hcap k s.resp
  obtain ⟨-, -, rfl⟩ := encodeFrame_eq_some.1 hF
  exact execErrorAction_eq_next.2 ⟨k, _, hst, hph, hF, emit_frame hF hidle⟩

end Sys2Proof.Proofs
end

section
/-! The decoder and the encoder (30_encoding.md R103 to R120, 42_command_codec.md R211 to R223): what a payload that
decodes looks like, the two round trips, and the words that name no instruction. -/

namespace Sys2Proof.Proofs
open Sys2Proof.Machine

/-! ### Commands -/

theorem cmdDecode_echoWrite (q : Bytes) : cmdDecode (0x01 :: 0x02 :: q) = .ok (.echoWrite q) := rfl

theorem cmdDecode_i2cRead (a r l : Byte) (x : Bytes) :
    cmdDecode (0x02 :: 0x01 :: a :: r :: l :: x) = .ok (.i2cRead a r l) := rfl

theorem cmdDecode_i2cWrite (a r : Byte) (q : Bytes) :
    cmdDecode (0x02 :: 0x02 :: a :: r :: q) = .ok (.i2cWrite a r q) := rfl

theorem cmdDecode_i2cRead_short {ops : Bytes} (h : ops.length < 3) :
    cmdDecode (0x02 :: 0x01 :: ops) = .error .badOperands :=
  match ops with
  | [] => rfl
  | [_] => rfl
  | [_, _] => rfl
  | _ :: _ :: _ :: _ => absurd h (by simp)

theorem cmdDecode_i2cWrite_short {ops : Bytes} (h : ops.length < 2) :
    cmdDecode (0x02 :: 0x02 :: ops) = .error .badOperands :=
  match ops with
  | [] => rfl
  | [_] => rfl
  | _ :: _ :: _ => absurd h (by simp)

theorem cmdDecode_eq_ok {P : Bytes} {c : Command} (h : cmdDecode P = .ok c) :
    (∃ q, P = 0x01 :: 0x02 :: q ∧ c = .echoWrite q) ∨
      (∃ a r l x, P = 0x02 :: 0x01 :: a :: r :: l :: x ∧ c = .i2cRead a r l) ∨
      ∃ a r q, P = 0x02 :: 0x02 :: a :: r :: q ∧ c = .i2cWrite a r q := by
  match P with
  | [] => cases h
  | [_] => cases h
  | m :: o :: ops =>
    by_cases hsupported : supported m o
    · obtain ⟨rfl, rfl⟩ | ⟨rfl, rfl⟩ | ⟨rfl, rfl⟩ := hsupported
      · cases h
        exact .inl ⟨ops, rfl, rfl⟩
      · match ops with
        | [] | [_] | [_, _] => cases h
        | a :: r :: l :: x => cases h; exact .inr (.inl ⟨a, r, l, x, rfl, rfl⟩)
      · match ops with
        | [] | [_] => cases h
        | a :: r :: q => cases h; exact .inr (.inr ⟨a, r, q, rfl, rfl⟩)
    · rw [cmdDecode_of_not_supported ops hsupported] at h
      cases h

theorem cmdDecode_eq_unknown {P : Bytes} {m o : Byte} (h : cmdDecode P = .error (.unknown m o)) :
    ∃ ops, P = m :: o :: ops := by
  unfold cmdDecode at h
  split at h
  · rename_i m' o' ops
    split_ifs at h
    · split at h <;> cases h
    · split at h <;> cases h
    · cases h
      exact ⟨ops, rfl⟩
  · cases h

theorem decodeCommand_eq_ok {P : Bytes} {i : Instr} (h : decodeCommand P = .ok i) :
    (∃ c, cmdDecode P = .ok c ∧ i = c.toInstr) ∨
      ∃ m o, cmdDecode P = .error (.unknown m o) ∧ i = .unknownCommand m o := by
  unfold decodeCommand at h
  split at h
  · cases h; exact .inl ⟨_, ‹_›, rfl⟩
  · cases h; exact .inr ⟨_, _, ‹_›, rfl⟩
  · cases h

/-- Settles O5: each command row keeps the payload it was read from, but for what may follow its last operand. -/
theorem decodedCommandKeepsItsBytes : Obligations.DecodedCommandKeepsItsBytes := by
  intro P i h
  obtain ⟨c, hc, rfl⟩ | ⟨m, o, hunknown, rfl⟩ := decodeCommand_eq_ok h
  · obtain ⟨q, rfl, rfl⟩ | ⟨a, r, l, x, rfl, rfl⟩ | ⟨a, r, q, rfl, rfl⟩ := cmdDecode_eq_ok hc
    · exact ⟨_, [], rfl, (List.append_nil _).symm, by simp⟩
    · exact ⟨_, x, rfl, rfl, fun _ => .inl ⟨a, r, l, rfl⟩⟩
    · exact ⟨_, [], rfl, (List.append_nil _).symm, by simp⟩
  · obtain ⟨ops, rfl⟩ := cmdDecode_eq_unknown hunknown
    exact ⟨_, ops, rfl, rfl, fun _ => .inr ⟨m, o, rfl⟩⟩

/-- Settles O4, by the layouts of the three supported selectors and the owned copy of each. -/
theorem operandsAndParseOutcome : Obligations.OperandsAndParseOutcome := by
  refine ⟨cmdDecode_echoWrite, cmdDecode_i2cRead, fun _ => cmdDecode_i2cRead_short, cmdDecode_i2cWrite,
    fun _ => cmdDecode_i2cWrite_short, fun cap P => ?_⟩
  rw [parsePayload]
  rcases cmdDecode P with (_ | _) | (q | _ | ⟨a, r, q⟩)
  · rfl
  · rfl
  · by_cases hq : q.length ≤ cap <;> simp [toOwned, copyInto, hq]
  · rfl
  · by_cases hq : q.length ≤ cap <;> simp [toOwned, copyInto, hq]

/-- The three supported commands run the same way (R320). -/
theorem exec_toInstr (c : Command) (s : State) :
    exec c.toInstr s = withFrame s fun f => finishParse f (toOwned s.params.cmdCap c) s := by
  cases c <;> rfl

theorem exec_unknownCommand (m o : Byte) (s : State) :
    exec (.unknownCommand m o) s = withFrame s fun f => finishParse f (.error .unknownCommand) s := rfl

/-- A row that a payload decodes to runs what `parse` makes of the payload. -/
theorem exec_decodeCommand {P : Bytes} {i : Instr} (h : decodeCommand P = .ok i) (s : State) :
    exec i s = withFrame s fun f => finishParse f (parsePayload s.params.cmdCap P) s := by
  obtain ⟨c, hc, rfl⟩ | ⟨m, o, hunknown, rfl⟩ := decodeCommand_eq_ok h
  · simp only [exec_toInstr, parsePayload, hc]
  · simp only [exec_unknownCommand, parsePayload_of_cmdDecode_error hunknown, cmdErrorKind]

/-- Settles O41: both run `parse` on the payload, at the same control pair. -/
theorem parseCommandRunsTheDecodedCommand : Obligations.ParseCommandRunsTheDecodedCommand := by
  intro s f P i hfr hread hdecode
  refine (execParseCommand_eq s).trans ?_
  rw [exec_decodeCommand hdecode]
  simp only [withFrame, hfr, hread]

/-! ### All rows -/

theorem decodeEvent_execErr (k : ErrorKind) (r : Bytes) :
    decodeEvent { code := 5, k := k.code, r := r } = .ok (.execErr k r) := by
  cases k <;> rfl

/-- Settles O1: an unsupported selector is read as the row UnknownCommand, a kind from its code, and every other row's
encoded form computes. -/
theorem decodeOfEncodeIsTheInstruction : Obligations.DecodeOfEncodeIsTheInstruction := by
  intro p i hwf
  cases i with
  | unknownCommand m o =>
    have hunsupported : ¬ supported m o := of_decide_eq_false (Bool.not_eq_true' _ ▸ hwf)
    simp only [encode, decode, decodeCommand, cmdDecode_of_not_supported [] hunsupported]
  | execErr k r => exact decodeEvent_execErr k r
  | echoWrite | i2cRead | i2cWrite => rfl
  | reset | rxByte | rxOverflow | timeout | execOk | txResultOk | txResultFull | txResultErr | time => rfl
  | init | handshakeResponseDone | frameReady | frameMalformed | parseCommand | executeActionStart => rfl
  | sendResponseStart | responseSent | errorAction | errorResolve | txAttempt => rfl

/-- Settles O2, by evaluating the decoder on the four words. -/
theorem writtenWordsDecode : Obligations.WrittenWordsDecode := ⟨rfl, rfl, rfl, rfl⟩

theorem errorKind_ofCode_unused : ∀ c : BitVec 3, 4 < c.toNat → ErrorKind.ofCode c = none := by decide

theorem encode_of_decodeInternal {sel : BitVec 5} {cls : FrameClass} {i : Instr}
    (h : decodeInternal sel cls = .ok i) :
    encode i = .internal sel cls ∨ encode i = .internal sel .needMoreData := by
  obtain ⟨rfl, rfl⟩ | ⟨rfl, rfl⟩ | ⟨rfl, rfl, rfl⟩ | ⟨rfl, rfl, rfl⟩ | ⟨rfl, rfl⟩ | ⟨rfl, rfl⟩ | ⟨rfl, rfl⟩ |
    ⟨rfl, rfl⟩ | ⟨rfl, rfl⟩ | ⟨rfl, rfl⟩ := decodeInternal_eq_ok h
  case inr.inr.inl | inr.inr.inr.inl => exact .inl rfl
  all_goals exact .inr rfl

theorem decodeInternal_eq_error {sel : BitVec 5} {cls : FrameClass} {e : DecodeError}
    (h : decodeInternal sel cls = .error e) : e = .noTransition := by
  unfold decodeInternal at h
  split_ifs at h
  · cases cls <;> cases h
    rfl
  · cases h
    rfl

/-- Settles O6: the two operand values no event has, and the selectors that no row encodes to. -/
theorem unlistedWordsAreRefused : Obligations.UnlistedWordsAreRefused := by
  refine ⟨fun w hcode hx => ?_, fun w hcode hk => ?_, fun sel cls hrow => ?_⟩
  · simp [decode, decodeEvent, hcode, hx]
  · simp [decode, decodeEvent, hcode, errorKind_ofCode_unused w.k hk]
  · simp only [decode]
    cases h : decodeInternal sel cls with
    | error e => rw [decodeInternal_eq_error h]
    | ok i =>
      obtain ⟨hcls, hneed⟩ := hrow i
      exact ((encode_of_decodeInternal h).elim hcls hneed).elim

/-- Settles O15, kind by kind. -/
theorem errorKindsHaveCodesAndNames : Obligations.ErrorKindsHaveCodesAndNames := by
  refine ⟨fun k => ?_, ErrorKind.ofCode_code, errorKind_ofCode_unused, rfl, rfl, rfl, rfl, rfl⟩
  cases k <;> rfl

end Sys2Proof.Proofs
end

section
/-! The invariant over the state's operations (10_state.md R32, R53 to R55): entering a control state with the engine
idle, and the updates that keep the control pair. -/

namespace Sys2Proof.Proofs
open Sys2Proof.Machine Sys2Proof.Safety

/-! ### What the invariant says at a control state -/

section facts
variable {s : State} (h : BlockInv s)
include h

theorem blockInv_idle (hph : s.ph ≠ .awaitTx) : s.tx = .idle := by
  by_contra htx
  exact hph (h.engine.1 htx)

theorem blockInv_cmd (hst : s.st ≠ .executeAction) : s.cmd = none := by
  obtain ⟨-, -, hcmd, -, -⟩ := h.data
  by_contra hne
  exact hst (hcmd.1 hne)

theorem blockInv_fr (hst : s.st ≠ .parseCommand) : s.fr = none := by
  obtain ⟨-, -, -, hfr, -⟩ := h.data
  by_contra hne
  exact hst (hfr.1 hne)

theorem blockInv_fb (hmessage : s.st ≠ .waitForMessage) (hparse : s.st ≠ .parseCommand) : s.fb = [] :=
  h.data.1 hmessage hparse

theorem blockInv_deadline (hst : s.st ≠ .init) : s.deadline = none ↔ s.hsDone = true := by
  have hrule := h.deadline
  simpa [DeadlineRule, hst] using hrule

/-- The handshake stands in the message path. -/
theorem blockInv_hsDone
    (hst : s.st = .waitForMessage ∨ s.st = .parseCommand ∨ s.st = .executeAction ∨ s.st = .sendResponse) :
    s.hsDone = true := by
  obtain ⟨-, -, hmessage⟩ := h.handshake
  exact hmessage hst

theorem blockInv_hsDone_waitForHandshake (hst : s.st = .waitForHandshake) : s.hsDone = true ↔ s.ph = .awaitTx := by
  obtain ⟨-, hwait, -⟩ := h.handshake
  exact hwait hst

end facts

/-- The script and the transcript are the model's own: no clause reads them. -/
theorem blockInv_script_trace {s : State} (h : BlockInv s) (script : List Move) (trace : List TraceItem) :
    BlockInv { s with script := script, trace := trace } :=
  { h with }

/-! ### Entering a control state -/

/-- What the invariant asks of every state whose engine is idle, whatever the control state. -/
structure Resting (u : State) : Prop where
  params : u.params.Wf
  hsBuf : u.hsBuf.length ≤ u.params.hsCap
  fb : u.fb.length ≤ u.params.fbCap
  cmdBuf : u.cmdBuf.length ≤ u.params.cmdCap
  resp : u.resp.length ≤ u.params.respCap
  idle : u.tx = .idle
  signal : ∀ q, u.status = some q → q = patternOf u.params.patternOf u.st

theorem resting_of_blockInv {s : State} (h : BlockInv s) (hidle : s.tx = .idle) : Resting s := by
  obtain ⟨hhsBuf, hfb, hcmdBuf, hresp, -⟩ := h.bounded
  exact ⟨h.params, hhsBuf, hfb, hcmdBuf, hresp, hidle, h.signal⟩

theorem setSt_signal {u : State} (hsignal : ∀ q, u.status = some q → q = patternOf u.params.patternOf u.st)
    (x : SystemState) : ∀ q, (u.setSt x).status = some q → q = patternOf u.params.patternOf x := by
  rw [State.setSt_status]
  split
  · rename_i hx; rwa [hx]
  · rintro q ⟨⟩; rfl

/-- Entering `x` in phase Run: the clauses that depend on the control state are those of `x`. -/
theorem blockInv_enter {u : State} {x : SystemState} (hrest : Resting u)
    (hdeadline : u.deadline = none ↔ (u.hsDone = true ∨ x = .init))
    (hdata : ControlDataRule { u with st := x })
    (hhandshake : (x = .init ∨ x = .waitForHandshake → u.hsDone = false) ∧
      (x = .waitForMessage ∨ x = .parseCommand ∨ x = .executeAction ∨ x = .sendResponse → u.hsDone = true))
    (hframe : ∀ f, u.fr = some f → decodeFrame u.fb = .frame f)
    (hwhole : x = .waitForMessage → ∀ f, decodeFrame u.fb = .frame f → f.consumed = u.fb.length)
    (hoperands : x ≠ .executeAction → u.cmdBuf = [])
    (hresponse : (∀ k, x ≠ .error k) → x ≠ .sendResponse → u.resp = []) :
    BlockInv { u.setSt x with ph := .run } where
  params := by simpa using hrest.params
  legal := by cases x <;> simp [legalPair]
  bounded := by simp [BuffersBounded, hrest.hsBuf, hrest.fb, hrest.cmdBuf, hrest.resp, hrest.idle]
  deadline := by simpa [DeadlineRule] using hdeadline
  data := by simpa [ControlDataRule] using hdata
  handshake := by
    obtain ⟨hbefore, hafter⟩ := hhandshake
    simp only [State.setSt_st, State.setSt_hsDone, reduceCtorEq, iff_false, Bool.not_eq_true]
    exact ⟨fun hx => hbefore (.inl hx), fun hx => hbefore (.inr hx), hafter⟩
  engine := by simp [hrest.idle]
  chunk := by simp [hrest.idle]
  frame := by simpa using hframe
  whole := by simpa using hwhole
  operands := by simpa using hoperands
  response := by simpa using hresponse
  signal := by simpa using setSt_signal hrest.signal x

theorem blockInv_raise {u : State} (k : ErrorKind) (hrest : Resting u)
    (hdeadline : u.deadline = none ↔ u.hsDone = true) (hfb : u.fb = []) (hfr : u.fr = none) (hcmd : u.cmd = none)
    (hcmdBuf : u.cmdBuf = []) : BlockInv (raise k u) :=
  blockInv_enter hrest (by simpa using hdeadline) (by simp [ControlDataRule, hfb, hfr, hcmd]) (by simp)
    (by simp [hfr]) (by simp) (fun _ => hcmdBuf) (by simp)

theorem setSt_run {u : State} (hph : u.ph = .run) (x : SystemState) : { u.setSt x with ph := .run } = u.setSt x := by
  have hrun : (u.setSt x).ph = .run := by simpa using hph
  rw [← hrun]

theorem blockInv_of_run {u : State} {x : SystemState} (hph : u.ph = .run)
    (h : BlockInv { u.setSt x with ph := .run }) : BlockInv (u.setSt x) :=
  setSt_run hph x ▸ h

/-- A state with nothing in flight: no frame, no command, no response. -/
structure Vacant (u : State) : Prop where
  fb : u.fb = []
  fr : u.fr = none
  cmd : u.cmd = none
  cmdBuf : u.cmdBuf = []
  resp : u.resp = []

theorem controlDataRule_of_vacant {u : State} (h : Vacant u) {x : SystemState} (hexec : x ≠ .executeAction)
    (hparse : x ≠ .parseCommand) : ControlDataRule { u with st := x } := by
  simp [ControlDataRule, h.fb, h.fr, h.cmd, hexec, hparse]

theorem blockInv_enter_init {u : State} (hrest : Resting u) (hvacant : Vacant u) (hhs : u.hsDone = false)
    (hdeadline : u.deadline = none) : BlockInv { u.setSt .init with ph := .run } :=
  blockInv_enter hrest (by simp [hdeadline]) (controlDataRule_of_vacant hvacant nofun nofun) (by simp [hhs])
    (by simp [hvacant.fr]) (by simp) (fun _ => hvacant.cmdBuf) (fun _ _ => hvacant.resp)

theorem blockInv_enter_waitForHandshake {u : State} (hrest : Resting u) (hvacant : Vacant u) (hhs : u.hsDone = false) :
    BlockInv { u.armDeadline.setSt .waitForHandshake with ph := .run } :=
  blockInv_enter (u := u.armDeadline) { hrest with } (by simp [hhs])
    (controlDataRule_of_vacant (u := u.armDeadline) { hvacant with } nofun nofun)
    (by simp [hhs]) (by simp [hvacant.fr]) (by simp) (fun _ => hvacant.cmdBuf) (fun _ _ => hvacant.resp)

theorem blockInv_enter_waitForMessage {u : State} (hrest : Resting u) (hvacant : Vacant u) (hhs : u.hsDone = true)
    (hdeadline : u.deadline = none) : BlockInv { u.setSt .waitForMessage with ph := .run } :=
  blockInv_enter hrest (by simp [hdeadline, hhs]) (controlDataRule_of_vacant hvacant nofun nofun) (by simp [hhs])
    (by simp [hvacant.fr]) (by simp [hvacant.fb]) (fun _ => hvacant.cmdBuf) (fun _ _ => hvacant.resp)

/-! ### Updates that keep the control state -/

theorem blockInv_hsBuf {s : State} (h : BlockInv s) {B : Bytes} (hB : B.length ≤ s.params.hsCap) :
    BlockInv { s with hsBuf := B } :=
  { h with bounded := ⟨hB, h.bounded.2⟩ }

theorem blockInv_now {s : State} (h : BlockInv s) {u : Tick} (hu : s.now ≤ u) : BlockInv { s with now := u } :=
  { h with
    chunk := fun msg ci t0 sub htx =>
      have ⟨hci, ht0⟩ := h.chunk msg ci t0 sub htx
      ⟨hci, BitVec.le_trans ht0 hu⟩ }

/-- A byte of a message that completes no frame, or the frame that is the whole buffer (R317). -/
theorem blockInv_fb_append {s : State} (h : BlockInv s) (hst : s.st = .waitForMessage)
    (hneed : decodeFrame s.fb = .needMoreData) (b : Byte) (hroom : s.fb.length < s.params.fbCap) :
    BlockInv { s with fb := s.fb ++ [b] } :=
  have ⟨hhsBuf, _, hrest⟩ := h.bounded
  have ⟨_, _, hcmd, hfr, _⟩ := h.data
  have hhs : s.hsDone = true := blockInv_hsDone h (.inl hst)
  { h with
    bounded := ⟨hhsBuf, by simpa using hroom, hrest⟩
    data := ⟨fun hmessage => absurd hst hmessage, by simp [hhs], hcmd, hfr, by simp [hst]⟩
    frame := by simp [blockInv_fr h (by simp [hst])]
    whole := fun _ _ => decodeFrame_append_singleton hneed }

/-- What a busy engine must hold: a message within `TX_STAGE`, at an existing chunk, first tried by now. -/
structure EngineFits (s : State) (x : TxState) : Prop where
  ne_idle : x ≠ .idle
  length : ∀ msg ci t0 sub, x = .busy msg ci t0 sub → msg.length ≤ s.params.txStage
  chunk : ∀ msg ci t0 sub, x = .busy msg ci t0 sub → ci < nch s.params.maxPacket msg ∧ t0 ≤ s.now

theorem engineFits_done (s : State) (ok : Bool) : EngineFits s (.done ok) := ⟨nofun, nofun, nofun⟩

theorem engineFits_busy {s : State} {msg : Bytes} {ci : Nat} {t0 : Tick} (hlength : msg.length ≤ s.params.txStage)
    (hci : ci < nch s.params.maxPacket msg) (ht0 : t0 ≤ s.now) (sub : TxSub) : EngineFits s (.busy msg ci t0 sub) where
  ne_idle := nofun
  length := by rintro _ _ _ _ ⟨⟩; exact hlength
  chunk := by rintro _ _ _ _ ⟨⟩; exact ⟨hci, ht0⟩

theorem engineFits_startTx {s : State} (hwf : s.params.Wf) {m : Bytes} (hm : m.length ≤ s.params.txStage) :
    EngineFits s (startTx m s.now) := by
  obtain ⟨-, -, -, -, -, -, hmp, -⟩ := hwf
  cases m with
  | nil => exact engineFits_done s true
  | cons b bs => exact engineFits_busy hm ((lt_nch_iff hmp 0).2 (by simp)) (BitVec.le_refl _) _

theorem engineFits_of_blockInv {s : State} (h : BlockInv s) {msg : Bytes} {ci : Nat} {t0 : Tick} {sub : TxSub}
    (htx : s.tx = .busy msg ci t0 sub) (sub' : TxSub) : EngineFits s (.busy msg ci t0 sub') := by
  obtain ⟨-, -, -, -, hstage⟩ := h.bounded
  obtain ⟨hci, ht0⟩ := h.chunk msg ci t0 sub htx
  exact engineFits_busy (hstage msg ci t0 sub htx) hci ht0 sub'

theorem blockInv_tx {s : State} (h : BlockInv s) (hbusy : s.tx ≠ .idle) {x : TxState} (hx : EngineFits s x) :
    BlockInv { s with tx := x } :=
  have ⟨hhsBuf, hfb, hcmdBuf, hresp, _⟩ := h.bounded
  { h with
    bounded := ⟨hhsBuf, hfb, hcmdBuf, hresp, hx.length⟩
    engine := iff_of_true hx.ne_idle (h.engine.1 hbusy)
    chunk := hx.chunk }

/-- Waiting for the engine, where R32 lets the control state do so. -/
theorem blockInv_awaitTx {s : State} (h : BlockInv s) (hst : s.st = .sendResponse ∨ ∃ k, s.st = .error k) {x : TxState}
    (hx : EngineFits s x) : BlockInv { s with tx := x, ph := .awaitTx } :=
  have ⟨hhsBuf, hfb, hcmdBuf, hresp, _⟩ := h.bounded
  have ⟨hinit, _, hmessage⟩ := h.handshake
  have hnot : s.st ≠ .waitForHandshake := by rintro hwait; simp [hwait] at hst
  { h with
    legal := by obtain hsend | ⟨k, herror⟩ := hst <;> simp [*, legalPair]
    bounded := ⟨hhsBuf, hfb, hcmdBuf, hresp, hx.length⟩
    handshake := ⟨hinit, fun hwait => absurd hwait hnot, hmessage⟩
    engine := iff_of_true hx.ne_idle rfl
    chunk := hx.chunk }

/-- The handshake response's start (R285). -/
theorem blockInv_handshakeMatch {s : State} (h : BlockInv s) (hst : s.st = .waitForHandshake) {x : TxState}
    (hx : EngineFits s x) :
    BlockInv { s with hsDone := true, deadline := none, hsBuf := [], fb := [], tx := x, ph := .awaitTx } :=
  have ⟨_, _, hcmdBuf, hresp, _⟩ := h.bounded
  have ⟨_, _, hcmd, hfr, _⟩ := h.data
  { h with
    legal := by simp [hst, legalPair]
    bounded := ⟨Nat.zero_le _, Nat.zero_le _, hcmdBuf, hresp, hx.length⟩
    deadline := by simp [DeadlineRule]
    data := ⟨fun _ _ => rfl, fun _ => rfl, hcmd, hfr, by simp [hst]⟩
    handshake := by simp [hst]
    engine := iff_of_true hx.ne_idle rfl
    chunk := hx.chunk
    frame := by simp [blockInv_fr h (by simp [hst])]
    whole := by simp [hst] }

/-- Waiting for the handler (R325). -/
theorem blockInv_awaitExec {s : State} (h : BlockInv s) (hst : s.st = .executeAction) (hph : s.ph = .run) :
    BlockInv { s with resp := [], ph := .awaitExec } :=
  have ⟨hhsBuf, hfb, hcmdBuf, _, hstage⟩ := h.bounded
  have ⟨hinit, _, hmessage⟩ := h.handshake
  { h with
    legal := by simp [hst, legalPair]
    bounded := ⟨hhsBuf, hfb, hcmdBuf, Nat.zero_le _, hstage⟩
    handshake := ⟨hinit, by simp [hst], hmessage⟩
    engine := by simp [blockInv_idle h (by simp [hph])]
    response := fun _ _ => rfl }

end Sys2Proof.Proofs
end

section
/-! The headline: every row keeps the invariant, one lemma per row or shared meaning, and so does every step; it holds
at power-on and of every reachable state (10_state.md R32, R53 to R55). -/

namespace Sys2Proof.Proofs
open Sys2Proof.Machine Sys2Proof.Safety

theorem vacant_of_blockInv {s : State} (h : BlockInv s) (hst : s.st = .init ∨ s.st = .waitForHandshake) : Vacant s := by
  obtain hst | hst := hst <;>
  exact
    { fb := blockInv_fb h (by simp [hst]) (by simp [hst])
      fr := blockInv_fr h (by simp [hst])
      cmd := blockInv_cmd h (by simp [hst])
      cmdBuf := h.operands (by simp [hst])
      resp := h.response (by simp [hst]) (by simp [hst]) }

/-- The errors that are raised while bytes are received (R311, R314, R316): the buffer is discarded. -/
theorem blockInv_raise_receiving {s : State} (h : BlockInv s) (k : ErrorKind) (hph : s.ph = .run)
    (hst : s.st = .waitForHandshake ∨ s.st = .waitForMessage) : BlockInv (raise k { s with fb := [] }) :=
  have hidle : s.tx = .idle := blockInv_idle h (by simp [hph])
  have hnot (x : SystemState) (hx : x ≠ .waitForHandshake ∧ x ≠ .waitForMessage) : s.st ≠ x := by
    rintro rfl
    exact hst.elim hx.1 hx.2
  blockInv_raise (u := { s with fb := [] }) k { resting_of_blockInv h hidle with fb := Nat.zero_le _ }
    (blockInv_deadline h (hnot _ (by simp)) :) rfl (blockInv_fr h (hnot _ (by simp)) :)
    (blockInv_cmd h (hnot _ (by simp)) :) (h.operands (hnot _ (by simp)))

theorem parsePayload_keeps_capacity {cap : Nat} {P : Bytes} {c : CommandOwned} {buf : Bytes}
    (hok : parsePayload cap P = .ok (c, buf)) : buf.length ≤ cap := by
  unfold parsePayload at hok
  split at hok
  · exact toOwned_keeps_capacity hok
  · cases hok

/-! ### Events -/

section rows
variable {s t : State} (h : BlockInv s)
include h

theorem reset_keeps_blockInv (ht : execReset s = .next t) : BlockInv t := by
  obtain rfl := execReset_eq_next.1 ht
  exact blockInv_of_run rfl (blockInv_enter_init
    ⟨h.params, Nat.zero_le _, Nat.zero_le _, Nat.zero_le _, Nat.zero_le _, rfl, h.signal⟩ ⟨rfl, rfl, rfl, rfl, rfl⟩
    rfl rfl)

theorem handshakeMatch_keeps_blockInv (hst : s.st = .waitForHandshake) (ht : handshakeMatch s = .next t) :
    BlockInv t := by
  obtain ⟨-, rfl⟩ := handshakeMatch_eq_next.1 ht
  exact blockInv_handshakeMatch h hst (engineFits_startTx h.params (Nat.le_max_right ..))

theorem rxByteHandshake_keeps_blockInv {b : Byte} (hst : s.st = .waitForHandshake)
    (ht : rxByteHandshake b s = .next t) : BlockInv t := by
  obtain ⟨-, rfl⟩ | ⟨hroom, -, rfl⟩ | ⟨-, -, -, rfl⟩ | ⟨-, -, -, hmatch⟩ := rxByteHandshake_eq_next.1 ht
  · exact blockInv_hsBuf h (Nat.zero_le _)
  · exact blockInv_hsBuf h (by simpa using hroom)
  · exact blockInv_hsBuf h (Nat.zero_le _)
  · exact handshakeMatch_keeps_blockInv h hst hmatch

theorem rxByte_keeps_blockInv {b : Byte} (ht : execRxByte b s = .next t) : BlockInv t := by
  obtain ⟨hquiet, ⟨hst, hbyte⟩ | ⟨hst, hbyte⟩⟩ := execRxByte_eq_next.1 ht
  · exact rxByteHandshake_keeps_blockInv h hst hbyte
  · obtain ⟨hph, hwait | ⟨hmessage, hneed⟩⟩ := quiescent_iff.1 hquiet
    · exact absurd hwait hst
    · obtain ⟨hroom, rfl⟩ | ⟨-, rfl⟩ := rxByteMessage_eq_next.1 hbyte
      · exact blockInv_fb_append h hmessage hneed b hroom
      · exact blockInv_raise_receiving h _ hph (.inr hmessage)

theorem rxOverflow_keeps_blockInv (ht : execRxOverflow s = .next t) : BlockInv t := by
  obtain ⟨hquiet, rfl⟩ := execRxOverflow_eq_next.1 ht
  obtain ⟨hph, hst⟩ := quiescent_iff.1 hquiet
  exact blockInv_raise_receiving h _ hph (hst.imp_right And.left)

theorem timeout_keeps_blockInv (ht : execTimeout s = .next t) : BlockInv t := by
  obtain ⟨hquiet, ⟨hst, helapsed, rfl⟩ | ⟨-, rfl⟩⟩ := execTimeout_eq_next.1 ht
  · have hph : s.ph = .run := (quiescent_iff.1 hquiet).1
    have hidle : s.tx = .idle := blockInv_idle h (by simp [hph])
    have harmed : s.deadline ≠ none := by rintro hnone; simp [State.deadlineElapsed, hnone] at helapsed
    have hvacant : Vacant s := vacant_of_blockInv h (.inr hst)
    exact blockInv_raise (u := { s with hsBuf := [], fb := [], hsDone := false }) .timeout
      { resting_of_blockInv h hidle with hsBuf := Nat.zero_le _, fb := Nat.zero_le _ } (by simp [harmed]) rfl hvacant.fr
      hvacant.cmd hvacant.cmdBuf
  · exact h

/-- What a completion leaves before it enters its control state (R326, R327). -/
theorem resting_completed {r : Bytes} (hph : s.ph = .awaitExec) (hr : r.length ≤ s.params.respCap) :
    Resting { s with resp := r, cmd := none, cmdBuf := [] } :=
  { resting_of_blockInv h (blockInv_idle h (by simp [hph])) with cmdBuf := Nat.zero_le _, resp := hr }

theorem execOk_keeps_blockInv {r : Bytes} (ht : execExecOk r s = .next t) : BlockInv t := by
  obtain ⟨hst, hph, hr, rfl⟩ := execExecOk_eq_next.1 ht
  have hfb : s.fb = [] := blockInv_fb h (by simp [hst]) (by simp [hst])
  have hfr : s.fr = none := blockInv_fr h (by simp [hst])
  have hhs : s.hsDone = true := blockInv_hsDone h (by simp [hst])
  have hdeadline : s.deadline = none := (blockInv_deadline h (by simp [hst])).2 hhs
  exact blockInv_enter (resting_completed h hph hr) (by simp [hhs, hdeadline]) (by simp [ControlDataRule, hfb, hfr])
    (by simp [hhs]) (by simp [hfr]) (by simp) (fun _ => rfl) (by simp)

theorem execErr_keeps_blockInv {k : ErrorKind} {r : Bytes} (ht : execExecErr k r s = .next t) : BlockInv t := by
  obtain ⟨hst, hph, hr, rfl⟩ := execExecErr_eq_next.1 ht
  exact blockInv_raise k (resting_completed h hph hr) (blockInv_deadline h (by simp [hst]) :)
    (blockInv_fb h (by simp [hst]) (by simp [hst]) :) (blockInv_fr h (by simp [hst]) :) rfl rfl

theorem txResultOk_keeps_blockInv (ht : execTxResultOk s = .next t) : BlockInv t := by
  obtain ⟨msg, ci, t0, htx, rfl⟩ := execTxResultOk_eq_next.1 ht
  refine blockInv_tx h (by simp [htx]) ?_
  split
  · exact engineFits_done s true
  · rename_i hlast
    obtain ⟨-, -, -, -, hstage⟩ := h.bounded
    obtain ⟨hci, -⟩ := h.chunk _ _ _ _ htx
    exact engineFits_busy (hstage _ _ _ _ htx) (by omega) (BitVec.le_refl _) _

theorem txResultFull_keeps_blockInv (ht : execTxResultFull s = .next t) : BlockInv t := by
  obtain ⟨msg, ci, t0, htx, rfl⟩ := execTxResultFull_eq_next.1 ht
  refine blockInv_tx h (by simp [htx]) ?_
  split
  · exact engineFits_done s false
  · exact engineFits_of_blockInv h htx _

theorem txResultErr_keeps_blockInv (ht : execTxResultErr s = .next t) : BlockInv t := by
  obtain ⟨msg, ci, t0, htx, rfl⟩ := execTxResultErr_eq_next.1 ht
  exact blockInv_tx h (by simp [htx]) (engineFits_done s false)

theorem time_keeps_blockInv {u : Tick} (ht : execTime u s = .next t) : BlockInv t := by
  obtain ⟨hu, rfl⟩ := execTime_eq_next.1 ht
  exact blockInv_now h hu

/-! ### Internal transitions -/

theorem init_keeps_blockInv (ht : execInit s = .next t) : BlockInv t := by
  obtain ⟨hst, hph, rfl⟩ := execInit_eq_next.1 ht
  exact blockInv_of_run hph (blockInv_enter_waitForHandshake (resting_of_blockInv h (blockInv_idle h (by simp [hph])))
    (vacant_of_blockInv h (.inl hst)) (h.handshake.1 hst))

theorem handshakeResponseDone_keeps_blockInv (ht : execHandshakeResponseDone s = .next t) : BlockInv t := by
  obtain ⟨hst, hph, -, rfl⟩ := execHandshakeResponseDone_eq_next.1 ht
  have hhs : s.hsDone = true := (blockInv_hsDone_waitForHandshake h hst).2 hph
  obtain ⟨hhsBuf, hfb, hcmdBuf, hresp, -⟩ := h.bounded
  exact blockInv_enter_waitForMessage (u := { s with tx := .idle })
    ⟨h.params, hhsBuf, hfb, hcmdBuf, hresp, rfl, h.signal⟩ { vacant_of_blockInv h (.inr hst) with } hhs
    ((blockInv_deadline h (by simp [hst])).2 hhs)

theorem frameReady_keeps_blockInv (ht : execFrameReady s = .next t) : BlockInv t := by
  obtain ⟨hst, hph, f, hframe, rfl⟩ := execFrameReady_eq_next.1 ht
  have hhs : s.hsDone = true := blockInv_hsDone h (.inl hst)
  have hdeadline : s.deadline = none := (blockInv_deadline h (by simp [hst])).2 hhs
  have hcmd : s.cmd = none := blockInv_cmd h (by simp [hst])
  have hwhole := h.whole hst f hframe
  exact blockInv_of_run hph (blockInv_enter (u := { s with fr := some f })
    { resting_of_blockInv h (blockInv_idle h (by simp [hph])) with } (by simp [hhs, hdeadline])
    (by simp [ControlDataRule, hhs, hcmd, hwhole]) (by simp [hhs]) (by simp [hframe]) (by simp)
    (fun _ => h.operands (by simp [hst])) (fun _ _ => h.response (by simp [hst]) (by simp [hst])))

theorem frameMalformed_keeps_blockInv (ht : execFrameMalformed s = .next t) : BlockInv t := by
  obtain ⟨hst, hph, -, rfl⟩ := execFrameMalformed_eq_next.1 ht
  exact blockInv_raise_receiving h _ hph (.inr hst)

/-- The end of ParseCommand (R320): the frame was the whole buffer, so nothing is left of it. -/
theorem finishParse_keeps_blockInv {f : FrameDesc} {r : Except ErrorKind (CommandOwned × Bytes)}
    (hst : s.st = .parseCommand) (hph : s.ph = .run) (hfr : s.fr = some f)
    (hr : ∀ c buf, r = .ok (c, buf) → buf.length ≤ s.params.cmdCap) (ht : finishParse f r s = .next t) :
    BlockInv t := by
  obtain ⟨-, -, -, -, hconsumed⟩ := h.data
  have hrest : Resting s := resting_of_blockInv h (blockInv_idle h (by simp [hph]))
  have hdrop : s.fb.drop f.consumed = [] := by simp [hconsumed hst f hfr]
  have hhs : s.hsDone = true := blockInv_hsDone h (by simp [hst])
  have hdeadline : s.deadline = none := (blockInv_deadline h (by simp [hst])).2 hhs
  obtain ⟨-, ⟨c, buf, hok, rfl⟩ | ⟨k, -, rfl⟩⟩ := finishParse_eq_next.1 ht
  · rw [hdrop]
    exact blockInv_of_run hph (blockInv_enter (u := { s with cmdBuf := buf, fb := [], fr := none, cmd := some c })
      { hrest with cmdBuf := hr c buf hok, fb := Nat.zero_le _ } (by simp [hhs, hdeadline])
      (by simp [ControlDataRule]) (by simp [hhs]) (by simp) (by simp) (by simp)
      (fun _ _ => h.response (by simp [hst]) (by simp [hst])))
  · rw [hdrop]
    exact blockInv_raise (u := { s with fb := [], fr := none }) k { hrest with fb := Nat.zero_le _ }
      (by simp [hhs, hdeadline]) rfl rfl (blockInv_cmd h (by simp [hst]) :) (h.operands (by simp [hst]))

theorem parseCommand_keeps_blockInv (ht : execParseCommand s = .next t) : BlockInv t := by
  obtain ⟨hst, hph, f, P, hfr, -, hfinish⟩ := execParseCommand_eq_next.1 ht
  exact finishParse_keeps_blockInv h hst hph hfr (fun _ _ => parsePayload_keeps_capacity) hfinish

theorem command_keeps_blockInv (c : Command) (ht : exec c.toInstr s = .next t) : BlockInv t := by
  rw [exec_toInstr] at ht
  obtain ⟨hst, hph, f, hfr, hfinish⟩ := withFrame_eq_next.1 ht
  exact finishParse_keeps_blockInv h hst hph hfr (fun _ _ => toOwned_keeps_capacity) hfinish

theorem unknownCommand_keeps_blockInv {m o : Byte} (ht : execUnknownCommand m o s = .next t) : BlockInv t := by
  obtain ⟨hst, hph, f, hfr, hfinish⟩ := execUnknownCommand_eq_next.1 ht
  exact finishParse_keeps_blockInv h hst hph hfr (by simp) hfinish

theorem executeActionStart_keeps_blockInv (ht : execExecuteActionStart s = .next t) : BlockInv t := by
  obtain ⟨hst, hph, c, -, rfl⟩ := execExecuteActionStart_eq_next.1 ht
  exact blockInv_script_trace (blockInv_awaitExec h hst hph) s.script _

/-- A frame within `TX_CAP` is within `TX_STAGE` (R46). -/
theorem emit_keeps_blockInv {P F : Bytes} (hst : s.st = .sendResponse ∨ ∃ k, s.st = .error k)
    (hF : encodeFrame s.params.txCap P = some F) (ht : emit F s = .next t) : BlockInv t := by
  obtain ⟨-, rfl⟩ := emit_eq_next.1 ht
  exact blockInv_awaitTx h hst (engineFits_startTx h.params ((length_le_of_encodeFrame hF).trans (Nat.le_max_left ..)))

theorem sendResponseStart_keeps_blockInv (ht : execSendResponseStart s = .next t) : BlockInv t := by
  obtain ⟨hst, hph, ⟨F, hF, hemit⟩ | ⟨-, rfl⟩⟩ := execSendResponseStart_eq_next.1 ht
  · exact emit_keeps_blockInv h (.inl hst) hF hemit
  · exact blockInv_raise _ (resting_of_blockInv h (blockInv_idle h (by simp [hph])))
      (blockInv_deadline h (by simp [hst])) (blockInv_fb h (by simp [hst]) (by simp [hst]))
      (blockInv_fr h (by simp [hst])) (blockInv_cmd h (by simp [hst])) (h.operands (by simp [hst]))

theorem errorAction_keeps_blockInv (ht : execErrorAction s = .next t) : BlockInv t := by
  obtain ⟨k, F, hst, -, hF, hemit⟩ := execErrorAction_eq_next.1 ht
  exact emit_keeps_blockInv h (.inr ⟨k, hst⟩) hF hemit

theorem responseSent_keeps_blockInv (ht : execResponseSent s = .next t) : BlockInv t := by
  obtain ⟨hst, hph, -, rfl⟩ := execResponseSent_eq_next.1 ht
  have hhs : s.hsDone = true := blockInv_hsDone h (by simp [hst])
  obtain ⟨hhsBuf, hfb, hcmdBuf, -, -⟩ := h.bounded
  exact blockInv_enter_waitForMessage (u := { s with tx := .idle, resp := [] })
    ⟨h.params, hhsBuf, hfb, hcmdBuf, Nat.zero_le _, rfl, h.signal⟩
    ⟨(blockInv_fb h (by simp [hst]) (by simp [hst]) :), (blockInv_fr h (by simp [hst]) :),
      (blockInv_cmd h (by simp [hst]) :), h.operands (by simp [hst]), rfl⟩
    hhs ((blockInv_deadline h (by simp [hst])).2 hhs)

theorem errorResolve_keeps_blockInv (ht : execErrorResolve s = .next t) : BlockInv t := by
  obtain ⟨k, hst, -, -, rfl⟩ := execErrorResolve_eq_next.1 ht
  obtain ⟨hhsBuf, hfb, -, -, -⟩ := h.bounded
  have hrest : Resting { s with tx := .idle, resp := [], cmd := none, cmdBuf := [] } :=
    ⟨h.params, hhsBuf, hfb, Nat.zero_le _, Nat.zero_le _, rfl, h.signal⟩
  have hvacant : Vacant { s with tx := .idle, resp := [], cmd := none, cmdBuf := [] } :=
    ⟨(blockInv_fb h (by simp [hst]) (by simp [hst]) :), (blockInv_fr h (by simp [hst]) :), rfl, rfl, rfl⟩
  cases hhs : s.hsDone with
  | true =>
    rw [resolveError_done hhs]
    exact blockInv_enter_waitForMessage hrest hvacant hhs ((blockInv_deadline h (by simp [hst])).2 hhs)
  | false =>
    rw [resolveError_not_done hhs]
    exact blockInv_enter_waitForHandshake hrest hvacant hhs

theorem txAttempt_keeps_blockInv (ht : execTxAttempt s = .next t) : BlockInv t := by
  obtain ⟨msg, ci, t0, first, tn, htx, -, rfl⟩ := execTxAttempt_eq_next.1 ht
  obtain ⟨hci, ht0⟩ := h.chunk _ _ _ _ htx
  obtain ⟨-, -, -, -, hstage⟩ := h.bounded
  have hfits : EngineFits s (.busy msg ci (if first then s.now else t0) .awaitResult) := by
    refine engineFits_busy (hstage _ _ _ _ htx) hci ?_ _
    split
    · exact BitVec.le_refl _
    · exact ht0
  exact blockInv_script_trace (blockInv_tx h (by simp [htx]) hfits) s.script _

end rows

theorem exec_keeps_blockInv {i : Instr} {s t : State} (h : BlockInv s) (ht : exec i s = .next t) : BlockInv t := by
  cases i with
  | echoWrite q => exact command_keeps_blockInv h (.echoWrite q) ht
  | i2cRead a r l => exact command_keeps_blockInv h (.i2cRead a r l) ht
  | i2cWrite a r q => exact command_keeps_blockInv h (.i2cWrite a r q) ht
  | unknownCommand m o => exact unknownCommand_keeps_blockInv h ht
  | reset => exact reset_keeps_blockInv h ht
  | rxByte b => exact rxByte_keeps_blockInv h ht
  | rxOverflow => exact rxOverflow_keeps_blockInv h ht
  | timeout => exact timeout_keeps_blockInv h ht
  | execOk r => exact execOk_keeps_blockInv h ht
  | execErr k r => exact execErr_keeps_blockInv h ht
  | txResultOk => exact txResultOk_keeps_blockInv h ht
  | txResultFull => exact txResultFull_keeps_blockInv h ht
  | txResultErr => exact txResultErr_keeps_blockInv h ht
  | time u => exact time_keeps_blockInv h ht
  | init => exact init_keeps_blockInv h ht
  | handshakeResponseDone => exact handshakeResponseDone_keeps_blockInv h ht
  | frameReady => exact frameReady_keeps_blockInv h ht
  | frameMalformed => exact frameMalformed_keeps_blockInv h ht
  | parseCommand => exact parseCommand_keeps_blockInv h ht
  | executeActionStart => exact executeActionStart_keeps_blockInv h ht
  | sendResponseStart => exact sendResponseStart_keeps_blockInv h ht
  | responseSent => exact responseSent_keeps_blockInv h ht
  | errorAction => exact errorAction_keeps_blockInv h ht
  | errorResolve => exact errorResolve_keeps_blockInv h ht
  | txAttempt => exact txAttempt_keeps_blockInv h ht

/-- Settles O51: a step runs a row in a state that differs only in its script and transcript, and every row keeps the
invariant. -/
theorem stepKeepsTheInvariant : Obligations.StepKeepsTheInvariant := by
  intro s t h ht
  obtain ⟨-, i, u, hexec, ⟨-, script, rfl⟩ | ⟨w, rest, -, -, rfl⟩⟩ := step_cases ht
  · exact exec_keeps_blockInv (blockInv_script_trace h script s.trace) hexec
  · exact exec_keeps_blockInv (blockInv_script_trace h rest _) hexec

theorem blockInv_powerOn (p : Params) (now : Tick) (script : List Move) (hwf : p.Wf) :
    BlockInv (State.powerOn p now script) where
  params := hwf
  legal := rfl
  bounded := ⟨Nat.zero_le _, Nat.zero_le _, Nat.zero_le _, Nat.zero_le _, nofun⟩
  deadline := iff_of_true rfl (.inr rfl)
  data := ⟨fun _ _ => rfl, fun _ => rfl, by simp [State.powerOn], by simp [State.powerOn], nofun⟩
  handshake := ⟨fun _ => rfl, nofun, by simp [State.powerOn]⟩
  engine := by simp [State.powerOn]
  chunk := nofun
  frame := nofun
  whole := nofun
  operands := fun _ => rfl
  response := fun _ _ => rfl
  signal := nofun

/-- Settles O50: nothing is in flight at power-on, and the test parameters meet R10. -/
theorem invariantAtPowerOn : Obligations.InvariantAtPowerOn :=
  ⟨blockInv_powerOn, blockInv_powerOn _ _ _ (by decide)⟩

theorem blockInv_of_reachable {s : State} (h : Reachable s) : BlockInv s := by
  induction h with
  | powerOn p now script hwf => exact blockInv_powerOn p now script hwf
  | step _ hstep ih => exact stepKeepsTheInvariant _ _ ih hstep

/-- Settles O52, by induction on the run. -/
theorem reachableStatesMeetTheInvariants : Obligations.ReachableStatesMeetTheInvariants := fun _ h =>
  have hinv := blockInv_of_reachable h
  ⟨hinv.legal, hinv.bounded, hinv.deadline, hinv.data⟩

end Sys2Proof.Proofs
end

section
/-! What a step can change (40_machine_step.md R160, R161, 10_state.md R40): every row is an update of the data that
keeps the parameters, the control state and the status, followed by one control-state write. -/

namespace Sys2Proof.Proofs
open Sys2Proof.Machine Sys2Proof.Safety

/-- What a row can add to the transcript before its control-state write (30_encoding.md R118). -/
def Emits (s u : State) : Prop :=
  u.trace = s.trace ∨ (∃ c, u.trace = s.trace ++ [.txChunk c]) ∨
    ∃ c, s.st = .executeAction ∧ s.cmd = some c ∧ u.trace = s.trace ++ [.execReq c s.cmdBuf]

/-- The rows that write `hs_done` (10_state.md R40). -/
def WritesHandshake (i : Instr) : Prop := i = .reset ∨ i = .timeout ∨ ∃ b, i = .rxByte b

/-- `u` is `s` up to its data: what the row `i` does before its control-state write. -/
structure DataUpdate (i : Instr) (s u : State) : Prop where
  params : u.params = s.params
  st : u.st = s.st
  status : u.status = s.status
  script : u.script = s.script
  emits : Emits s u
  now : (∀ v, i ≠ .time v) → u.now = s.now
  hsDone : ¬ WritesHandshake i → u.hsDone = s.hsDone

theorem dataUpdate_record {i : Instr} {s : State} {ph : Phase} {hsDone : Bool} {deadline : Option Tick}
    {hsBuf fb : Bytes} {fr : Option FrameDesc} {cmd : Option CommandOwned} {cmdBuf resp : Bytes} {tx : TxState}
    {now : Tick} (hnow : (∀ v, i ≠ .time v) → now = s.now) (hhs : ¬ WritesHandshake i → hsDone = s.hsDone) :
    DataUpdate i s
      { s with
        ph := ph
        hsDone := hsDone
        deadline := deadline
        hsBuf := hsBuf
        fb := fb
        fr := fr
        cmd := cmd
        cmdBuf := cmdBuf
        resp := resp
        tx := tx
        now := now } :=
  ⟨rfl, rfl, rfl, rfl, .inl rfl, hnow, hhs⟩

theorem dataUpdate_keep {i : Instr} {s : State} {ph : Phase} {deadline : Option Tick} {hsBuf fb : Bytes}
    {fr : Option FrameDesc} {cmd : Option CommandOwned} {cmdBuf resp : Bytes} {tx : TxState} :
    DataUpdate i s
      { s with
        ph := ph
        deadline := deadline
        hsBuf := hsBuf
        fb := fb
        fr := fr
        cmd := cmd
        cmdBuf := cmdBuf
        resp := resp
        tx := tx } :=
  dataUpdate_record (fun _ => rfl) (fun _ => rfl)

/-- A data update followed by one control-state write, which may keep the control state. -/
def IsWrite (i : Instr) (s t : State) : Prop := ∃ u x, DataUpdate i s u ∧ t = u.setSt x

variable {i : Instr} {s u t : State}

theorem isWrite_data (hu : DataUpdate i s u) : IsWrite i s u := ⟨u, u.st, hu, (State.setSt_self u).symm⟩

theorem isWrite_setSt (hu : DataUpdate i s u) (x : SystemState) : IsWrite i s (u.setSt x) := ⟨u, x, hu, rfl⟩

theorem setSt_with_ph (u : State) (x : SystemState) (p : Phase) :
    { u.setSt x with ph := p } = { u with ph := p }.setSt x := by
  simp only [setSt_eq_update]

theorem isWrite_setSt_run (hu : DataUpdate i s u) (x : SystemState) :
    IsWrite i s { u.setSt x with ph := .run } :=
  ⟨{ u with ph := .run }, x, { hu with }, setSt_with_ph u x .run⟩

theorem isWrite_raise (hu : DataUpdate i s u) (k : ErrorKind) : IsWrite i s (raise k u) :=
  isWrite_setSt_run hu (.error k)

theorem isWrite_finishParse {f : FrameDesc} {r : Except ErrorKind (CommandOwned × Bytes)}
    (h : finishParse f r s = .next t) : IsWrite i s t := by
  obtain ⟨-, ⟨c, buf, -, rfl⟩ | ⟨k, -, rfl⟩⟩ := finishParse_eq_next.1 h
  · exact isWrite_setSt dataUpdate_keep _
  · exact isWrite_raise dataUpdate_keep _

theorem isWrite_command (c : Command) (h : exec c.toInstr s = .next t) : IsWrite c.toInstr s t := by
  rw [exec_toInstr] at h
  obtain ⟨-, -, f, -, hfinish⟩ := withFrame_eq_next.1 h
  exact isWrite_finishParse hfinish

theorem isWrite_emit {m : Bytes} (h : emit m s = .next t) : IsWrite i s t := by
  obtain ⟨-, rfl⟩ := emit_eq_next.1 h
  exact isWrite_data dataUpdate_keep

theorem isWrite_rxByte {b : Byte} (h : execRxByte b s = .next t) : IsWrite (.rxByte b) s t := by
  obtain ⟨-, ⟨-, hbyte⟩ | ⟨-, hbyte⟩⟩ := execRxByte_eq_next.1 h
  · obtain ⟨-, rfl⟩ | ⟨-, -, rfl⟩ | ⟨-, -, -, rfl⟩ | ⟨-, -, -, hmatch⟩ := rxByteHandshake_eq_next.1 hbyte
    · exact isWrite_data dataUpdate_keep
    · exact isWrite_data dataUpdate_keep
    · exact isWrite_data dataUpdate_keep
    · obtain ⟨-, rfl⟩ := handshakeMatch_eq_next.1 hmatch
      exact isWrite_data (dataUpdate_record (fun _ => rfl) fun hnot => absurd (.inr (.inr ⟨b, rfl⟩)) hnot)
  · obtain ⟨-, rfl⟩ | ⟨-, rfl⟩ := rxByteMessage_eq_next.1 hbyte
    · exact isWrite_data dataUpdate_keep
    · exact isWrite_raise dataUpdate_keep _

theorem isWrite_timeout (h : execTimeout s = .next t) : IsWrite .timeout s t := by
  obtain ⟨-, ⟨-, -, rfl⟩ | ⟨-, rfl⟩⟩ := execTimeout_eq_next.1 h
  · exact isWrite_raise (dataUpdate_record (fun _ => rfl) fun hnot => absurd (.inr (.inl rfl)) hnot) _
  · exact isWrite_data dataUpdate_keep

theorem isWrite_sendResponseStart (h : execSendResponseStart s = .next t) : IsWrite i s t := by
  obtain ⟨-, -, ⟨F, -, hemit⟩ | ⟨-, rfl⟩⟩ := execSendResponseStart_eq_next.1 h
  · exact isWrite_emit hemit
  · exact isWrite_raise dataUpdate_keep _

theorem isWrite_resolveError : IsWrite i s (resolveError s) := by
  cases hhs : s.hsDone with
  | true => rw [resolveError_done hhs]; exact isWrite_setSt_run dataUpdate_keep _
  | false => rw [resolveError_not_done hhs]; exact isWrite_setSt_run dataUpdate_keep _

/-- What a row can do, said once. -/
theorem exec_isWrite (h : exec i s = .next t) : IsWrite i s t := by
  cases i with
  | echoWrite q => exact isWrite_command (.echoWrite q) h
  | i2cRead a r l => exact isWrite_command (.i2cRead a r l) h
  | i2cWrite a r q => exact isWrite_command (.i2cWrite a r q) h
  | unknownCommand m o =>
    obtain ⟨-, -, f, -, hfinish⟩ := execUnknownCommand_eq_next.1 h
    exact isWrite_finishParse hfinish
  | reset =>
    obtain rfl := execReset_eq_next.1 h
    exact isWrite_setSt (dataUpdate_record (fun _ => rfl) fun hnot => absurd (.inl rfl) hnot) _
  | rxByte b => exact isWrite_rxByte h
  | rxOverflow =>
    obtain ⟨-, rfl⟩ := execRxOverflow_eq_next.1 h
    exact isWrite_raise dataUpdate_keep _
  | timeout => exact isWrite_timeout h
  | execOk r =>
    obtain ⟨-, -, -, rfl⟩ := execExecOk_eq_next.1 h
    exact isWrite_setSt_run dataUpdate_keep _
  | execErr k r =>
    obtain ⟨-, -, -, rfl⟩ := execExecErr_eq_next.1 h
    exact isWrite_raise dataUpdate_keep _
  | txResultOk =>
    obtain ⟨_, _, _, -, rfl⟩ := execTxResultOk_eq_next.1 h
    exact isWrite_data dataUpdate_keep
  | txResultFull =>
    obtain ⟨_, _, _, -, rfl⟩ := execTxResultFull_eq_next.1 h
    exact isWrite_data dataUpdate_keep
  | txResultErr =>
    obtain ⟨_, _, _, -, rfl⟩ := execTxResultErr_eq_next.1 h
    exact isWrite_data dataUpdate_keep
  | time v =>
    obtain ⟨-, rfl⟩ := execTime_eq_next.1 h
    exact isWrite_data (dataUpdate_record (fun hnot => absurd rfl (hnot v)) fun _ => rfl)
  | init =>
    obtain ⟨-, -, rfl⟩ := execInit_eq_next.1 h
    exact isWrite_setSt dataUpdate_keep _
  | handshakeResponseDone =>
    obtain ⟨-, -, -, rfl⟩ := execHandshakeResponseDone_eq_next.1 h
    exact isWrite_setSt_run dataUpdate_keep _
  | frameReady =>
    obtain ⟨-, -, f, -, rfl⟩ := execFrameReady_eq_next.1 h
    exact isWrite_setSt dataUpdate_keep _
  | frameMalformed =>
    obtain ⟨-, -, -, rfl⟩ := execFrameMalformed_eq_next.1 h
    exact isWrite_raise dataUpdate_keep _
  | parseCommand =>
    obtain ⟨-, -, f, P, -, -, hfinish⟩ := execParseCommand_eq_next.1 h
    exact isWrite_finishParse hfinish
  | executeActionStart =>
    obtain ⟨hst, -, c, hcmd, rfl⟩ := execExecuteActionStart_eq_next.1 h
    exact isWrite_data ⟨rfl, rfl, rfl, rfl, .inr (.inr ⟨c, hst, hcmd, rfl⟩), fun _ => rfl, fun _ => rfl⟩
  | sendResponseStart => exact isWrite_sendResponseStart h
  | responseSent =>
    obtain ⟨-, -, -, rfl⟩ := execResponseSent_eq_next.1 h
    exact isWrite_setSt_run dataUpdate_keep _
  | errorAction =>
    obtain ⟨k, F, -, -, -, hemit⟩ := execErrorAction_eq_next.1 h
    exact isWrite_emit hemit
  | errorResolve =>
    obtain ⟨k, -, -, -, rfl⟩ := execErrorResolve_eq_next.1 h
    exact isWrite_resolveError
  | txAttempt =>
    obtain ⟨msg, ci, t0, first, tn, -, -, rfl⟩ := execTxAttempt_eq_next.1 h
    exact isWrite_data ⟨rfl, rfl, rfl, rfl, .inr (.inl ⟨_, rfl⟩), fun _ => rfl, fun _ => rfl⟩

/-! ### Status (R161) -/

theorem emits_trace (h : Emits s u) : ∃ out, u.trace = s.trace ++ out := by
  obtain h | ⟨c, h⟩ | ⟨c, -, -, h⟩ := h
  · exact ⟨[], by simp [h]⟩
  · exact ⟨_, h⟩
  · exact ⟨_, h⟩

/-- The state that a step's instruction runs in: the step's own but for the script and the accepted event, which issues
nothing. -/
structure Fetched (s u : State) : Prop where
  eq : u = { s with script := u.script, trace := u.trace }
  trace : ∃ out, u.trace = s.trace ++ out
  issued : issued u.trace = issued s.trace

theorem step_fetched (h : step s = .next t) : ∃ i u, Fetched s u ∧ exec i u = .next t := by
  obtain ⟨-, i, u, hexec, ⟨-, script, rfl⟩ | ⟨w, rest, -, -, rfl⟩⟩ := step_cases h
  · exact ⟨i, { s with script := script }, ⟨rfl, ⟨[], (List.append_nil _).symm⟩, rfl⟩, hexec⟩
  · exact ⟨i, { s with script := rest, trace := s.trace ++ [.accepted i] },
      ⟨rfl, ⟨_, rfl⟩, by simp [issued_append, issued]⟩, hexec⟩

/-- Settles O45: before its control-state write a step keeps `st` and `status`, and the write sets both or neither. -/
theorem statusFollowsTheControlState : Obligations.StatusFollowsTheControlState := by
  intro s t h
  obtain ⟨i, u, ⟨hfetch, ⟨out, hout⟩, -⟩, hexec⟩ := step_fetched h
  obtain ⟨v, x, hv, rfl⟩ := exec_isWrite hexec
  obtain ⟨more, hmore⟩ := emits_trace hv.emits
  have hst : v.st = s.st := by rw [hv.st, hfetch]
  have hstatus : v.status = s.status := by rw [hv.status, hfetch]
  have hparams : v.params = s.params := by rw [hv.params, hfetch]
  rw [State.setSt_st, State.setSt_status, State.setSt_trace, hst, hstatus, hparams, hmore, hout]
  refine ⟨fun hx => if_pos hx, fun hx => ⟨if_neg hx, out ++ more, ?_⟩⟩
  rw [if_neg hx, List.append_assoc s.trace]

/-! ### Clock and handshake flag -/

/-- An internal transition is none of the events (R154, R254). -/
theorem internalTransition_not_event (h : s.internalTransition = some i) (w : EventWord) : decodeEvent w ≠ .ok i := by
  intro hevent
  have hinternal : (∃ sel cls, encode i = .internal sel cls) ∨ i = .txAttempt := by
    obtain hcontrol | ⟨-, htransmit⟩ := internalTransition_eq_some.1 h
    · obtain ⟨-, hdecode⟩ := controlTransition_eq_some.1 hcontrol
      exact .inl ((encode_of_decodeInternal hdecode).elim (⟨_, _, ·⟩) (⟨_, _, ·⟩))
    · exact .inr (transmitTransition_eq_some.1 htransmit).1
  obtain rfl | rfl | rfl | rfl | rfl | ⟨k, rfl⟩ | rfl | rfl | rfl | rfl := decodeEvent_eq_ok hevent <;>
    simp [encode] at hinternal

/-- Only Time moves the clock, so a step that moves it accepts a Time event. -/
theorem step_time_of_now_ne (h : step s = .next t) (hne : t.now ≠ s.now) :
    ∃ v rest, s.now ≤ v ∧ t = { s with now := v, script := rest, trace := s.trace ++ [.accepted (.time v)] } := by
  obtain ⟨-, i, u, hexec, hfetch⟩ := step_cases h
  have hnow : u.now = s.now := by obtain ⟨-, script, rfl⟩ | ⟨w, rest, -, -, rfl⟩ := hfetch <;> rfl
  obtain ⟨v, rfl⟩ : ∃ v, i = .time v := by
    by_contra hnot
    obtain ⟨u', x, hu, rfl⟩ := exec_isWrite hexec
    exact hne (by rw [State.setSt_now, hu.now (not_exists.1 hnot), hnow])
  obtain ⟨hle, rfl⟩ := execTime_eq_next.1 hexec
  obtain ⟨hinternal, -⟩ | ⟨w, rest, -, -, rfl⟩ := hfetch
  · exact absurd rfl (internalTransition_not_event hinternal { code := 7, t := v })
  · exact ⟨v, rest, hle, rfl⟩

/-- Settles O44: no data update writes the parameters, and the clock is Time's. -/
theorem onlyTimeMovesTheClock : Obligations.OnlyTimeMovesTheClock := by
  intro s t h
  refine ⟨?_, ?_, fun hne => ?_⟩
  · obtain ⟨i, u, ⟨hu, -, -⟩, hexec⟩ := step_fetched h
    obtain ⟨v, x, hv, rfl⟩ := exec_isWrite hexec
    rw [State.setSt_params, hv.params, hu]
  · by_cases hne : t.now = s.now
    · rw [hne]
      exact BitVec.le_refl _
    · obtain ⟨v, rest, hle, rfl⟩ := step_time_of_now_ne h hne
      exact hle
  · obtain ⟨v, rest, -, rfl⟩ := step_time_of_now_ne h hne
    rfl

theorem deadlineElapsed_iff : s.deadlineElapsed = true ↔ ∃ d, s.deadline = some d ∧ d ≤ s.now := by
  unfold State.deadlineElapsed
  split <;> simp [*]

/-- What a step that writes `hs_done` runs: one of the three events, accepted in this step. -/
theorem step_writesHandshake (h : step s = .next t) (hne : t.hsDone ≠ s.hsDone) :
    ∃ i rest, WritesHandshake i ∧ exec i { s with script := rest, trace := s.trace ++ [.accepted i] } = .next t := by
  obtain ⟨-, i, u, hexec, hfetch⟩ := step_cases h
  have hhs : u.hsDone = s.hsDone := by obtain ⟨-, script, rfl⟩ | ⟨w, rest, -, -, rfl⟩ := hfetch <;> rfl
  have hwrites : WritesHandshake i := by
    by_contra hnot
    obtain ⟨u', x, hu, rfl⟩ := exec_isWrite hexec
    exact hne (by rw [State.setSt_hsDone, hu.hsDone hnot, hhs])
  obtain ⟨hinternal, -⟩ | ⟨w, rest, -, -, rfl⟩ := hfetch
  · have hnot := internalTransition_not_event hinternal
    obtain rfl | rfl | ⟨b, rfl⟩ := hwrites
    · exact absurd rfl (hnot { code := 0 })
    · exact absurd rfl (hnot { code := 3 })
    · exact absurd rfl (hnot { code := 1, b := b })
  · exact ⟨i, rest, hwrites, hexec⟩

/-- A received byte sets `hs_done` by the phrase's delimiter only. -/
theorem rxByte_writes_hsDone {b : Byte} (h : execRxByte b s = .next t) (hne : t.hsDone ≠ s.hsDone) :
    b = 0x0A ∧ t.hsDone = true ∧ s.st = .waitForHandshake ∧ s.ph = .run ∧ s.hsBuf = s.params.handshakePhrase ∧
      s.hsBuf.length < s.params.hsCap ∧ t.trace = s.trace := by
  obtain ⟨hquiet, ⟨hst, hbyte⟩ | ⟨-, hbyte⟩⟩ := execRxByte_eq_next.1 h
  · obtain ⟨-, rfl⟩ | ⟨-, -, rfl⟩ | ⟨-, -, -, rfl⟩ | ⟨hroom, hb, hphrase, hmatch⟩ := rxByteHandshake_eq_next.1 hbyte
    · exact absurd rfl hne
    · exact absurd rfl hne
    · exact absurd rfl hne
    · obtain ⟨-, rfl⟩ := handshakeMatch_eq_next.1 hmatch
      exact ⟨hb, rfl, hst, (quiescent_iff.1 hquiet).1, hphrase, hroom, rfl⟩
  · obtain ⟨-, rfl⟩ | ⟨-, rfl⟩ := rxByteMessage_eq_next.1 hbyte
    · exact absurd rfl hne
    · exact absurd (raise_hsDone ..) hne

/-- A Timeout clears `hs_done` by raising its error only. -/
theorem timeout_writes_hsDone (h : execTimeout s = .next t) (hne : t.hsDone ≠ s.hsDone) :
    t.hsDone = false ∧ s.st = .waitForHandshake ∧ s.ph = .run ∧ (∃ d, s.deadline = some d ∧ d ≤ s.now) ∧
      t.st = .error .timeout ∧ t.trace = s.trace ++ [.statusWrite (pat s (.error .timeout))] := by
  obtain ⟨hquiet, ⟨hst, helapsed, rfl⟩ | ⟨-, rfl⟩⟩ := execTimeout_eq_next.1 h
  · refine ⟨raise_hsDone .., hst, (quiescent_iff.1 hquiet).1, deadlineElapsed_iff.1 helapsed, raise_st .., ?_⟩
    rw [raise_of_ne _ _ (by simp [hst])]
  · exact absurd rfl hne

/-- Settles O46, by the three rows that write the flag. -/
theorem handshakeFlagWriters : Obligations.HandshakeFlagWriters := by
  intro s t h hne
  obtain ⟨i, rest, rfl | rfl | ⟨b, rfl⟩, hexec⟩ := step_writesHandshake h hne
  · obtain rfl := execReset_eq_next.1 hexec
    refine .inr (.inr ⟨State.setSt_hsDone .., State.setSt_st .., ?_⟩)
    rw [setSt_eq_update]
    by_cases hst : s.st = .init <;> simp [hst]
  · obtain ⟨hhs, hst, hph, helapsed, hst', htrace⟩ := timeout_writes_hsDone hexec hne
    exact .inr (.inl ⟨hhs, hst, hph, helapsed, hst', by rw [htrace, List.append_assoc]; rfl⟩)
  · obtain ⟨rfl, hhs, hst, hph, hphrase, hroom, htrace⟩ := rxByte_writes_hsDone hexec hne
    exact .inl ⟨hhs, hst, hph, hphrase, hroom, htrace⟩

/-! ### Requests -/

theorem issued_of_emits (h : Emits s u) (hne : issued u.trace ≠ issued s.trace) :
    s.st = .executeAction ∧ ∃ c, s.cmd = some c ∧ issued u.trace = issued s.trace ++ [(c, s.cmdBuf)] := by
  obtain h | ⟨c, h⟩ | ⟨c, hst, hcmd, h⟩ := h
  · exact absurd (congrArg issued h) hne
  · rw [h, issued_append] at hne
    exact absurd (List.append_nil _) hne
  · exact ⟨hst, c, hcmd, by rw [h, issued_append]; rfl⟩

/-- Settles O54: a request is issued in ExecuteAction only, where the invariant has the handshake done. -/
theorem noCommandBeforeTheHandshake : Obligations.NoCommandBeforeTheHandshake := by
  intro s t hinv h hne
  obtain ⟨i, u, ⟨hu, -, hissued⟩, hexec⟩ := step_fetched h
  obtain ⟨v, x, hv, rfl⟩ := exec_isWrite hexec
  rw [issued_setSt] at hne ⊢
  rw [← hissued] at hne ⊢
  obtain ⟨hst, c, hcmd, heq⟩ := issued_of_emits hv.emits hne
  rw [hu] at hst hcmd
  refine ⟨blockInv_hsDone hinv (.inr (.inr (.inl hst))), c, hcmd, ?_⟩
  rw [heq, hu]

end Sys2Proof.Proofs
end

section
/-! Which instruction a step runs (40_machine_step.md R151 to R157): `fetch` by the move at the head of the script, and
the obligation assembled from it. -/

namespace Sys2Proof.Proofs
open Sys2Proof.Machine Sys2Proof.Safety

variable {s : State} {w : EventWord} {rest : List Move} {i : Instr} {e : DecodeError}

theorem present_of_contract (hevent : decodeEvent w = .ok i) (hkeeps : s.keepsContract i = true) :
    present w rest s = .ok (i, { s with script := rest, trace := s.trace ++ [.accepted i] }) :=
  present_eq_ok.2 ⟨hevent, hkeeps, rfl⟩

theorem present_of_not_contract (hevent : decodeEvent w = .ok i) (hbreaks : s.keepsContract i = false) :
    present w rest s = .error .handlerContract := by
  simp [present, decode, hevent, hbreaks]

theorem present_of_bad_event (hevent : decodeEvent w = .error e) : present w rest s = .error (.badEvent e) := by
  simp [present, decode, hevent]

theorem fetch_badParameters (hwf : ¬ s.params.Wf) : fetch s = .error .badParameters := if_neg hwf

section wellFormed
variable (hwf : s.params.Wf)
include hwf

theorem fetch_now (hscript : s.script = .now w :: rest) : fetch s = present w rest s := by
  rw [fetch, if_pos hwf, hscript]

theorem fetch_whenIdle_waits (hscript : s.script = .whenIdle w :: rest) (hnone : s.internalTransition = none) :
    fetch s = present w rest s := by
  rw [fetch, if_pos hwf, hscript]
  simp only [hnone]

theorem fetch_whenIdle_runs (hscript : s.script = .whenIdle w :: rest) (hsome : s.internalTransition = some i) :
    fetch s = .ok (i, s) := by
  rw [fetch, if_pos hwf, hscript]
  simp only [hsome]

theorem fetch_internal_runs (hscript : s.script = .internal :: rest) (hsome : s.internalTransition = some i) :
    fetch s = .ok (i, { s with script := rest }) := by
  rw [fetch, if_pos hwf, hscript]
  simp only [hsome]

theorem fetch_internal_none (hscript : s.script = .internal :: rest) (hnone : s.internalTransition = none) :
    fetch s = .error .noTransition := by
  rw [fetch, if_pos hwf, hscript]
  simp only [hnone]

theorem fetch_nil_runs (hscript : s.script = []) (hsome : s.internalTransition = some i) : fetch s = .ok (i, s) := by
  rw [fetch, if_pos hwf, hscript]
  simp only [hsome]

theorem fetch_nil_none (hscript : s.script = []) (hnone : s.internalTransition = none) :
    fetch s = .error .noInput := by
  rw [fetch, if_pos hwf, hscript]
  simp only [hnone]

end wellFormed

theorem step_of_fetch_ok {u : State} (h : fetch s = .ok (i, u)) : step s = exec i u := by rw [step, h]

theorem step_of_fetch_error {r : Refusal} (h : fetch s = .error r) : step s = .refused r := by rw [step, h]

/-- Only a completion of a pending EchoWrite can break the contract (R333). -/
theorem completion_of_not_contract (h : s.keepsContract i = false) :
    s.st = .executeAction ∧ s.ph = .awaitExec ∧ s.cmd = some .echoWrite ∧
      ((∃ r, i = .execOk r) ∨ ∃ k r, i = .execErr k r) := by
  obtain ⟨hpending, hcompletion, -⟩ := keepsContract_eq_false.1 h
  obtain ⟨hst, hph, hcmd⟩ := pendingCommand_eq_some.1 hpending
  exact ⟨hst, hph, hcmd, isCompletion_eq_true.1 hcompletion⟩

/-- Settles O40, by the move at the head of the script. -/
theorem stepRunsTheDecodedInstruction : Obligations.StepRunsTheDecodedInstruction := by
  intro s w rest i e
  refine ⟨fun hwf => step_of_fetch_error (fetch_badParameters hwf), fun hwf => ⟨fun hmove => ?_, ?_, ?_, ?_, ?_, ?_⟩,
    completion_of_not_contract⟩
  · have hpresent : fetch s = present w rest s :=
      hmove.elim (fetch_now hwf) fun ⟨hscript, hnone⟩ => fetch_whenIdle_waits hwf hscript hnone
    exact ⟨fun hevent hkeeps => step_of_fetch_ok (hpresent.trans (present_of_contract hevent hkeeps)),
      fun hevent hbreaks => step_of_fetch_error (hpresent.trans (present_of_not_contract hevent hbreaks)),
      fun hevent => step_of_fetch_error (hpresent.trans (present_of_bad_event hevent))⟩
  · exact fun hscript hsome => step_of_fetch_ok (fetch_whenIdle_runs hwf hscript hsome)
  · exact fun hscript hsome => step_of_fetch_ok (fetch_internal_runs hwf hscript hsome)
  · exact fun hscript hsome => step_of_fetch_ok (fetch_nil_runs hwf hscript hsome)
  · exact fun hscript hnone => step_of_fetch_error (fetch_internal_none hwf hscript hnone)
  · exact fun hscript hnone => step_of_fetch_error (fetch_nil_none hwf hscript hnone)

end Sys2Proof.Proofs
end

section
/-! No rule reads `status` (10_state.md R48): two states that differ only in it fetch the same instruction, and every
row answers the same, up to `status`. One lemma per shared operation, then one line per row. -/

namespace Sys2Proof.Proofs
open Sys2Proof.Machine Sys2Proof.Safety

/-- The two outcomes are the same up to the status of a next state. -/
inductive SameButStatus : Result → Result → Prop
  | next (t : State) (q : Option Pattern) : SameButStatus (.next t) (.next { t with status := q })
  | fault (r : Fault) : SameButStatus (.fault r) (.fault r)
  | refused (r : Refusal) : SameButStatus (.refused r) (.refused r)

variable {s : State} {q : Option Pattern}

theorem sameButStatus_setSt (u : State) (q : Option Pattern) (x : SystemState) :
    SameButStatus (.next (u.setSt x)) (.next ({ u with status := q }.setSt x)) := by
  rw [setSt_eq_update, setSt_eq_update]
  exact .next _ _

theorem sameButStatus_setSt_run (u : State) (q : Option Pattern) (x : SystemState) :
    SameButStatus (.next { u.setSt x with ph := .run }) (.next { { u with status := q }.setSt x with ph := .run }) := by
  rw [setSt_with_ph, setSt_with_ph]
  exact sameButStatus_setSt { u with ph := .run } q x

theorem sameButStatus_raise (u : State) (q : Option Pattern) (k : ErrorKind) :
    SameButStatus (.next (raise k u)) (.next (raise k { u with status := q })) :=
  sameButStatus_setSt_run u q (.error k)

/-! ### Guards -/

theorem sameButStatus_ite {c : Prop} [Decidable c] {a a' b b' : Result} (ha : SameButStatus a a')
    (hb : SameButStatus b b') : SameButStatus (if c then a else b) (if c then a' else b') := by
  split
  · exact ha
  · exact hb

theorem sameButStatus_whenAt {st : SystemState} {ph : Phase} {k k' : Result} (hk : SameButStatus k k') :
    SameButStatus (whenAt st ph s k) (whenAt st ph { s with status := q } k') :=
  sameButStatus_ite hk (.refused _)

theorem sameButStatus_whenError {ph : Phase} {f f' : ErrorKind → Result} (hf : ∀ k, SameButStatus (f k) (f' k)) :
    SameButStatus (whenError ph s f) (whenError ph { s with status := q } f') := by
  unfold whenError
  dsimp only
  cases s.st with
  | error k => exact sameButStatus_ite (hf k) (.refused _)
  | init | waitForHandshake | waitForMessage | parseCommand | executeAction | sendResponse => exact .refused _

theorem sameButStatus_whenDone {k k' : Result} (hk : SameButStatus k k') :
    SameButStatus (whenDone s k) (whenDone { s with status := q } k') := by
  unfold whenDone
  dsimp only
  cases s.tx with
  | done ok => exact hk
  | idle | busy => exact .refused _

theorem sameButStatus_withFrame {k k' : FrameDesc → Result} (hk : ∀ f, SameButStatus (k f) (k' f)) :
    SameButStatus (withFrame s k) (withFrame { s with status := q } k') := by
  refine sameButStatus_ite ?_ (.refused _)
  dsimp only
  cases s.fr with
  | some f => exact hk f
  | none => exact .fault _

theorem sameButStatus_emit (m : Bytes) : SameButStatus (emit m s) (emit m { s with status := q }) := by
  unfold emit
  dsimp only
  cases s.tx with
  | idle => exact .next _ _
  | busy | done => exact .fault _

theorem sameButStatus_finishParse (f : FrameDesc) (r : Except ErrorKind (CommandOwned × Bytes)) :
    SameButStatus (finishParse f r s) (finishParse f r { s with status := q }) := by
  unfold finishParse
  dsimp only
  cases compact s.fb f.consumed with
  | none => exact .fault _
  | some fb' =>
    rcases r with k | ⟨c, buf⟩
    · exact sameButStatus_raise _ _ _
    · exact sameButStatus_setSt _ _ _

theorem sameButStatus_acceptResult (k : Bytes → Nat → Tick → TxState) :
    SameButStatus (acceptResult s k) (acceptResult { s with status := q } k) := by
  unfold acceptResult
  dsimp only
  rcases s.tx with _ | ⟨msg, ci, t0, (_ | _)⟩ | _
  case busy.awaitResult => exact .next _ _
  all_goals exact .refused _

theorem sameButStatus_acceptCompletion {r : Bytes} {k : State → State}
    (hk : ∀ u, SameButStatus (.next (k u)) (.next (k { u with status := q }))) :
    SameButStatus (acceptCompletion r s k) (acceptCompletion r { s with status := q } k) :=
  sameButStatus_ite (sameButStatus_ite (hk _) (.refused _)) (.refused _)

/-! ### Rows -/

theorem sameButStatus_rxByteHandshake (b : Byte) :
    SameButStatus (rxByteHandshake b s) (rxByteHandshake b { s with status := q }) := by
  unfold rxByteHandshake
  dsimp only
  cases append s.params.hsCap s.hsBuf b with
  | none => exact .next _ _
  | some h =>
    exact sameButStatus_ite (.next _ _) (sameButStatus_ite (sameButStatus_emit (s := { s with
      hsDone := true, deadline := none, hsBuf := [], fb := [] }) _) (.next _ _))

theorem sameButStatus_rxByteMessage (b : Byte) :
    SameButStatus (rxByteMessage b s) (rxByteMessage b { s with status := q }) := by
  unfold rxByteMessage
  dsimp only
  cases append s.params.fbCap s.fb b with
  | none => exact sameButStatus_raise _ _ _
  | some fb' => exact .next _ _

theorem sameButStatus_frameReady : SameButStatus (execFrameReady s) (execFrameReady { s with status := q }) := by
  refine sameButStatus_whenAt ?_
  dsimp only
  cases decodeFrame s.fb with
  | frame f => exact sameButStatus_setSt _ _ _
  | malformed | needMoreData => exact .refused _

theorem sameButStatus_frameMalformed :
    SameButStatus (execFrameMalformed s) (execFrameMalformed { s with status := q }) := by
  refine sameButStatus_whenAt ?_
  dsimp only
  cases decodeFrame s.fb with
  | malformed => exact sameButStatus_raise _ _ _
  | frame | needMoreData => exact .refused _

theorem sameButStatus_parseCommand :
    SameButStatus (execParseCommand s) (execParseCommand { s with status := q }) := by
  rw [execParseCommand_eq, execParseCommand_eq]
  refine sameButStatus_withFrame fun f => ?_
  dsimp only
  cases memRead s.fb f.off f.plen with
  | none => exact .fault _
  | some P => exact sameButStatus_finishParse f _

theorem sameButStatus_executeActionStart :
    SameButStatus (execExecuteActionStart s) (execExecuteActionStart { s with status := q }) := by
  refine sameButStatus_whenAt ?_
  dsimp only
  cases s.cmd with
  | some c => exact .next _ _
  | none => exact .fault _

theorem sameButStatus_sendResponseStart :
    SameButStatus (execSendResponseStart s) (execSendResponseStart { s with status := q }) := by
  refine sameButStatus_whenAt ?_
  dsimp only
  cases encodeFrame s.params.txCap s.resp with
  | some F => exact sameButStatus_emit F
  | none => exact sameButStatus_raise _ _ _

theorem sameButStatus_errorAction :
    SameButStatus (execErrorAction s) (execErrorAction { s with status := q }) := by
  refine sameButStatus_whenError fun k => ?_
  dsimp only
  cases encodeFrame s.params.txCap (errorMessage s.params.txCap k s.resp) with
  | some F => exact sameButStatus_emit F
  | none => exact .fault _

theorem sameButStatus_resolveError :
    SameButStatus (.next (resolveError s)) (.next (resolveError { s with status := q })) := by
  unfold resolveError
  dsimp only
  cases s.hsDone with
  | true => exact sameButStatus_setSt_run _ _ _
  | false => exact sameButStatus_setSt_run (State.armDeadline _) _ _

theorem sameButStatus_txAttempt : SameButStatus (execTxAttempt s) (execTxAttempt { s with status := q }) := by
  unfold execTxAttempt
  dsimp only
  rcases s.tx with _ | ⟨msg, ci, t0, (⟨first, tn⟩ | _)⟩ | _
  case busy.ready => exact sameButStatus_ite (.next _ _) (.refused _)
  all_goals exact .refused _

theorem exec_sameButStatus (i : Instr) (s : State) (q : Option Pattern) :
    SameButStatus (exec i s) (exec i { s with status := q }) := by
  cases i with
  | echoWrite | i2cRead | i2cWrite | unknownCommand =>
    exact sameButStatus_withFrame fun f => sameButStatus_finishParse f _
  | reset => exact sameButStatus_setSt _ _ _
  | rxByte b =>
    exact sameButStatus_ite (sameButStatus_ite (sameButStatus_rxByteHandshake b) (sameButStatus_rxByteMessage b))
      (.refused _)
  | rxOverflow => exact sameButStatus_ite (sameButStatus_raise _ _ _) (.refused _)
  | timeout => exact sameButStatus_ite (sameButStatus_ite (sameButStatus_raise _ _ _) (.next _ _)) (.refused _)
  | execOk r => exact sameButStatus_acceptCompletion fun u => sameButStatus_setSt_run u q _
  | execErr k r => exact sameButStatus_acceptCompletion fun u => sameButStatus_raise u q k
  | txResultOk | txResultFull | txResultErr => exact sameButStatus_acceptResult _
  | time u => exact sameButStatus_ite (.next _ _) (.refused _)
  | init => exact sameButStatus_whenAt (sameButStatus_setSt s.armDeadline q _)
  | handshakeResponseDone | responseSent =>
    exact sameButStatus_whenAt (sameButStatus_whenDone (sameButStatus_setSt_run _ _ _))
  | frameReady => exact sameButStatus_frameReady
  | frameMalformed => exact sameButStatus_frameMalformed
  | parseCommand => exact sameButStatus_parseCommand
  | executeActionStart => exact sameButStatus_executeActionStart
  | sendResponseStart => exact sameButStatus_sendResponseStart
  | errorAction => exact sameButStatus_errorAction
  | errorResolve => exact sameButStatus_whenError fun _ => sameButStatus_whenDone sameButStatus_resolveError
  | txAttempt => exact sameButStatus_txAttempt

/-! ### Steps -/

theorem present_status (w : EventWord) (rest : List Move) (s : State) (q : Option Pattern) :
    present w rest { s with status := q } =
      (present w rest s).map fun iu => (iu.1, { iu.2 with status := q }) := by
  unfold present
  cases decode (.event w) with
  | error e => rfl
  | ok i =>
    dsimp only
    have hsame : State.keepsContract { s with status := q } i = s.keepsContract i := rfl
    rw [hsame]
    split <;> rfl

/-- `fetch` on the state with another status: the same equation of the script's head on both sides. -/
theorem fetch_status (s : State) (q : Option Pattern) :
    fetch { s with status := q } = (fetch s).map fun iu => (iu.1, { iu.2 with status := q }) := by
  generalize hu : { s with status := q } = u
  have hparams : u.params = s.params := by rw [← hu]
  have hscriptEq : u.script = s.script := by rw [← hu]
  have htransEq : u.internalTransition = s.internalTransition := by rw [← hu]; rfl
  have hpresent (w : EventWord) (rest : List Move) :
      present w rest u = (present w rest s).map fun iu => (iu.1, { iu.2 with status := q }) :=
    hu ▸ present_status w rest s q
  by_cases hwf : s.params.Wf
  · have hwf' : u.params.Wf := hparams ▸ hwf
    match hscript : s.script, htrans : s.internalTransition with
    | [], some i =>
      rw [fetch_nil_runs hwf hscript htrans,
        fetch_nil_runs hwf' (hscriptEq.trans hscript) (htransEq.trans htrans), ← hu]
      rfl
    | [], none =>
      rw [fetch_nil_none hwf hscript htrans, fetch_nil_none hwf' (hscriptEq.trans hscript) (htransEq.trans htrans)]
      rfl
    | .internal :: rest, some i =>
      rw [fetch_internal_runs hwf hscript htrans,
        fetch_internal_runs hwf' (hscriptEq.trans hscript) (htransEq.trans htrans), ← hu]
      rfl
    | .internal :: rest, none =>
      rw [fetch_internal_none hwf hscript htrans,
        fetch_internal_none hwf' (hscriptEq.trans hscript) (htransEq.trans htrans)]
      rfl
    | .now w :: rest, _ => rw [fetch_now hwf hscript, fetch_now hwf' (hscriptEq.trans hscript), hpresent]
    | .whenIdle w :: rest, some i =>
      rw [fetch_whenIdle_runs hwf hscript htrans,
        fetch_whenIdle_runs hwf' (hscriptEq.trans hscript) (htransEq.trans htrans), ← hu]
      rfl
    | .whenIdle w :: rest, none =>
      rw [fetch_whenIdle_waits hwf hscript htrans,
        fetch_whenIdle_waits hwf' (hscriptEq.trans hscript) (htransEq.trans htrans), hpresent]
  · have hwf' : ¬ u.params.Wf := hparams ▸ hwf
    rw [fetch_badParameters hwf, fetch_badParameters hwf']
    rfl

theorem step_sameButStatus (s : State) (q : Option Pattern) : SameButStatus (step s) (step { s with status := q }) := by
  unfold step
  rw [fetch_status s q]
  cases fetch s with
  | error r => exact .refused r
  | ok iu => exact exec_sameButStatus iu.1 iu.2 q

theorem sameButStatus_cases {r r' : Result} (h : SameButStatus r r') :
    (∀ t, r = .next t → ∃ q', r' = .next { t with status := q' }) ∧ (∀ e, r = .fault e → r' = .fault e) ∧
      (∀ e, r = .refused e → r' = .refused e) := by
  cases h with
  | next t q' => simp
  | fault e => simp
  | refused e => simp

/-- Settles O47: the fetched instruction is the same, and its outcome the same up to `status`. -/
theorem statusNeverAffectsTheProtocol : Obligations.StatusNeverAffectsTheProtocol := fun s q =>
  sameButStatus_cases (step_sameButStatus s q)

end Sys2Proof.Proofs
end

section
/-! Progress under the invariant (40_machine_step.md R153 to R157): an enabled transition answers a next state, an event
answers one or is not presentable, and the block has a transition unless it waits for its environment. -/

namespace Sys2Proof.Proofs
open Sys2Proof.Machine Sys2Proof.Safety

variable {s : State} {i : Instr}

theorem internalTransition_eq_none :
    s.internalTransition = none ↔ s.controlTransition = none ∧ s.transmitTransition = none := by
  unfold State.internalTransition
  cases s.controlTransition <;> simp

theorem transmitTransition_of_idle (hidle : s.tx = .idle) : s.transmitTransition = none := by
  simp [State.transmitTransition, hidle]

/-- The table of R154 has no row for a waiting pair. -/
theorem controlTransition_of_quiescent (hlegal : legalPair s.st s.ph = true) (hquiet : s.quiescent = true) :
    s.controlTransition = none := by
  rw [Option.eq_none_iff_forall_ne_some]
  intro i hi
  have hrow := (controlTransitionTable s i hlegal).1 hi
  obtain ⟨hph, hst | ⟨hst, hneed⟩⟩ := quiescent_iff.1 hquiet
  · simp [hph, hst] at hrow
  · simp [hph, hst, hneed] at hrow

theorem internalTransition_of_quiescent (hlegal : legalPair s.st s.ph = true) (hquiet : s.quiescent = true)
    (hidle : s.tx = .idle) : s.internalTransition = none :=
  internalTransition_eq_none.2 ⟨controlTransition_of_quiescent hlegal hquiet, transmitTransition_of_idle hidle⟩

/-- In AwaitTx a block without a transition has a busy engine that waits for the transport or the clock. -/
theorem busy_waits (h : BlockInv s) (hph : s.ph = .awaitTx) (hnone : s.internalTransition = none) :
    ∃ msg ci t0 sub, s.tx = .busy msg ci t0 sub ∧
      (sub = .awaitResult ∨ ∃ first tn, sub = .ready first tn ∧ s.now < tn) := by
  obtain ⟨hcontrol, htransmit⟩ := internalTransition_eq_none.1 hnone
  match htx : s.tx with
  | .idle => exact absurd htx (h.engine.2 hph)
  | .busy msg ci t0 .awaitResult => exact ⟨msg, ci, t0, _, rfl, .inl rfl⟩
  | .busy msg ci t0 (.ready first tn) =>
    refine ⟨msg, ci, t0, _, rfl, .inr ⟨first, tn, rfl, ?_⟩⟩
    by_contra hdue
    have hready := transmitTransition_eq_some.2 ⟨rfl, msg, ci, t0, first, tn, htx, BitVec.not_lt.1 hdue⟩
    rw [htransmit] at hready
    cases hready
  | .done ok =>
    have hrow (i : Instr) := (controlTransitionTable s i h.legal).not.1 (by simp [hcontrol])
    have hlegal := h.legal
    match hst : s.st with
    | .init | .waitForMessage | .parseCommand | .executeAction => simp [hst, hph, legalPair] at hlegal
    | .waitForHandshake => exact absurd (by simp [hst, hph, htx]) (hrow .handshakeResponseDone)
    | .sendResponse => exact absurd (by simp [hst, hph, htx]) (hrow .responseSent)
    | .error k => exact absurd (by simp [hst, hph, htx]) (hrow .errorResolve)

/-- In phase Run a block without a transition is quiescent. -/
theorem quiescent_of_no_transition (h : BlockInv s) (hph : s.ph = .run) (hnone : s.internalTransition = none) :
    s.quiescent = true := by
  obtain ⟨hcontrol, -⟩ := internalTransition_eq_none.1 hnone
  have hrow (i : Instr) := (controlTransitionTable s i h.legal).not.1 (by simp [hcontrol])
  refine quiescent_iff.2 ⟨hph, ?_⟩
  match hst : s.st with
  | .init => exact absurd (by simp [hst, hph]) (hrow .init)
  | .waitForHandshake => exact .inl rfl
  | .waitForMessage =>
    match hframe : decodeFrame s.fb with
    | .needMoreData => exact .inr ⟨rfl, rfl⟩
    | .frame f => exact absurd (by simp [hst, hph, hframe]) (hrow .frameReady)
    | .malformed => exact absurd (by simp [hst, hph, hframe]) (hrow .frameMalformed)
  | .parseCommand => exact absurd (by simp [hst, hph]) (hrow .parseCommand)
  | .executeAction => exact absurd (by simp [hst, hph]) (hrow .executeActionStart)
  | .sendResponse => exact absurd (by simp [hst, hph]) (hrow .sendResponseStart)
  | .error k => exact absurd (by simp [hst, hph]) (hrow .errorAction)

/-- Settles O43, phase by phase. -/
theorem blockWaitsOnlyForTheEnvironment : Obligations.BlockWaitsOnlyForTheEnvironment := by
  intro s h
  refine ⟨fun hquiet => ?_, fun hnone => ?_⟩
  · have hph : s.ph = .run := (quiescent_iff.1 hquiet).1
    exact internalTransition_of_quiescent h.legal hquiet (blockInv_idle h (by simp [hph]))
  · match hph : s.ph with
    | .run => exact .inl (quiescent_of_no_transition h hph hnone)
    | .awaitExec =>
      have hlegal := h.legal
      match hst : s.st with
      | .executeAction => exact .inr (.inl ⟨rfl, rfl⟩)
      | .init | .waitForHandshake | .waitForMessage | .parseCommand | .sendResponse | .error _ =>
        simp [hst, hph, legalPair] at hlegal
    | .awaitTx =>
      obtain ⟨msg, ci, t0, sub, htx, hwait⟩ := busy_waits h hph hnone
      exact .inr (.inr ⟨msg, ci, t0, sub, rfl, htx, hwait⟩)

/-! ### No faults -/

theorem finishParse_answers {f : FrameDesc} (hconsumed : f.consumed ≤ s.fb.length)
    (r : Except ErrorKind (CommandOwned × Bytes)) : ∃ t, finishParse f r s = .next t := by
  rcases r with k | ⟨c, buf⟩
  · exact ⟨_, finishParse_eq_next.2 ⟨hconsumed, .inr ⟨k, rfl, rfl⟩⟩⟩
  · exact ⟨_, finishParse_eq_next.2 ⟨hconsumed, .inl ⟨c, buf, rfl, rfl⟩⟩⟩

/-- The decoded frame of the invariant lies inside the buffer, so its payload can be read and the frame dropped. -/
theorem parseCommand_answers (h : BlockInv s) (hst : s.st = .parseCommand) (hph : s.ph = .run) :
    ∃ t, execParseCommand s = .next t := by
  obtain ⟨-, -, -, hfr, -⟩ := h.data
  obtain ⟨f, hf⟩ := Option.ne_none_iff_exists'.1 (hfr.2 hst)
  obtain ⟨hsize, hinside, -, -⟩ := decodeFrame_bounds (h.frame f hf)
  obtain ⟨t, ht⟩ := finishParse_answers hinside (parsePayload s.params.cmdCap ((s.fb.drop f.off).take f.plen))
  exact ⟨t, execParseCommand_eq_next.2 ⟨hst, hph, f, _, hf, memRead_eq_some.2 ⟨by omega, rfl⟩, ht⟩⟩

theorem executeActionStart_answers (h : BlockInv s) (hst : s.st = .executeAction) (hph : s.ph = .run) :
    ∃ t, execExecuteActionStart s = .next t := by
  obtain ⟨-, -, hcmd, -, -⟩ := h.data
  obtain ⟨c, hc⟩ := Option.ne_none_iff_exists'.1 (hcmd.2 hst)
  exact ⟨_, execExecuteActionStart_eq_next.2 ⟨hst, hph, c, hc, rfl⟩⟩

theorem sendResponseStart_answers (h : BlockInv s) (hst : s.st = .sendResponse) (hph : s.ph = .run) :
    ∃ t, execSendResponseStart s = .next t := by
  have hidle : s.tx = .idle := blockInv_idle h (by simp [hph])
  cases hF : encodeFrame s.params.txCap s.resp with
  | some F => exact ⟨_, execSendResponseStart_eq_next.2 ⟨hst, hph, .inl ⟨F, hF, emit_frame hF hidle⟩⟩⟩
  | none => exact ⟨_, execSendResponseStart_eq_next.2 ⟨hst, hph, .inr ⟨hF, rfl⟩⟩⟩

/-- The enabled internal transition answers a next state: the invariant gives every precondition. -/
theorem enabled_answers (h : BlockInv s) (hi : s.internalTransition = some i) : ∃ t, exec i s = .next t := by
  obtain hcontrol | ⟨-, htransmit⟩ := internalTransition_eq_some.1 hi
  · obtain ⟨hst, hph, rfl⟩ | ⟨hst, hph, hdone, rfl⟩ | ⟨hst, hph, ⟨f, hframe⟩, rfl⟩ | ⟨hst, hph, hmalformed, rfl⟩ |
      ⟨hst, hph, rfl⟩ | ⟨hst, hph, rfl⟩ | ⟨hst, hph, rfl⟩ | ⟨hst, hph, hdone, rfl⟩ | ⟨⟨k, hst⟩, hph, rfl⟩ |
      ⟨⟨k, hst⟩, hph, hdone, rfl⟩ := (controlTransitionTable s i h.legal).1 hcontrol
    · exact ⟨_, execInit_eq_next.2 ⟨hst, hph, rfl⟩⟩
    · exact ⟨_, execHandshakeResponseDone_eq_next.2 ⟨hst, hph, hdone, rfl⟩⟩
    · exact ⟨_, execFrameReady_eq_next.2 ⟨hst, hph, f, hframe, rfl⟩⟩
    · exact ⟨_, execFrameMalformed_eq_next.2 ⟨hst, hph, hmalformed, rfl⟩⟩
    · exact parseCommand_answers h hst hph
    · exact executeActionStart_answers h hst hph
    · exact sendResponseStart_answers h hst hph
    · exact ⟨_, execResponseSent_eq_next.2 ⟨hst, hph, hdone, rfl⟩⟩
    · exact ⟨_, errorActionSendsTheMessage s k h.params hst hph (blockInv_idle h (by simp [hph]))⟩
    · exact ⟨_, execErrorResolve_eq_next.2 ⟨k, hst, hph, hdone, rfl⟩⟩
  · obtain ⟨rfl, msg, ci, t0, first, tn, htx, hdue⟩ := transmitTransition_eq_some.1 htransmit
    exact ⟨_, execTxAttempt_eq_next.2 ⟨msg, ci, t0, first, tn, htx, hdue, rfl⟩⟩

/-- What an event answers under the invariant. -/
def EventAnswer (r : Result) : Prop :=
  (∃ t, r = .next t) ∨ r = .refused .notPresentable ∨ r = .refused .operandRefused

theorem eventAnswer_next (t : State) : EventAnswer (.next t) := .inl ⟨t, rfl⟩

theorem eventAnswer_notPresentable : EventAnswer (.refused .notPresentable) := .inr (.inl rfl)

theorem eventAnswer_ite {c : Prop} [Decidable c] {a b : Result} (ha : c → EventAnswer a) (hb : EventAnswer b) :
    EventAnswer (if c then a else b) := by
  split
  · exact ha ‹_›
  · exact hb

theorem eventAnswer_rxByteHandshake (hidle : s.tx = .idle) (b : Byte) : EventAnswer (rxByteHandshake b s) := by
  unfold rxByteHandshake
  split
  · exact eventAnswer_next _
  · exact eventAnswer_ite (fun _ => eventAnswer_next _) (eventAnswer_ite
      (fun _ => .inl ⟨_, handshakeMatch_eq_next.2 ⟨hidle, rfl⟩⟩) (eventAnswer_next _))

theorem eventAnswer_rxByteMessage (b : Byte) : EventAnswer (rxByteMessage b s) := by
  unfold rxByteMessage
  split <;> exact eventAnswer_next _

theorem eventAnswer_acceptCompletion (r : Bytes) (k : State → State) : EventAnswer (acceptCompletion r s k) :=
  eventAnswer_ite (fun _ => eventAnswer_ite (fun _ => eventAnswer_next _) (.inr (.inr rfl))) eventAnswer_notPresentable

theorem exec_execOk (r : Bytes) (s : State) :
    exec (.execOk r) s = acceptCompletion r s fun t => { t.setSt .sendResponse with ph := .run } := rfl

theorem eventAnswer_acceptResult (k : Bytes → Nat → Tick → TxState) : EventAnswer (acceptResult s k) := by
  unfold acceptResult
  split
  · exact eventAnswer_next _
  all_goals exact eventAnswer_notPresentable

/-- An event answers a next state or is refused as the environment's: the match alone could fault, and it finds the
engine idle. -/
theorem event_answers (h : BlockInv s) {w : EventWord} (hi : decodeEvent w = .ok i) : EventAnswer (exec i s) := by
  have hidle (hquiet : s.quiescent = true) : s.tx = .idle := blockInv_idle h (by simp [(quiescent_iff.1 hquiet).1])
  obtain rfl | rfl | rfl | rfl | rfl | ⟨k, rfl⟩ | rfl | rfl | rfl | rfl := decodeEvent_eq_ok hi
  · exact eventAnswer_next _
  · exact eventAnswer_ite (fun hquiet => eventAnswer_ite (fun _ => eventAnswer_rxByteHandshake (hidle hquiet) _)
      (eventAnswer_rxByteMessage _)) eventAnswer_notPresentable
  · exact eventAnswer_ite (fun _ => eventAnswer_next _) eventAnswer_notPresentable
  · exact eventAnswer_ite (fun _ => eventAnswer_ite (fun _ => eventAnswer_next _) (eventAnswer_next _))
      eventAnswer_notPresentable
  · exact exec_execOk w.r s ▸ eventAnswer_acceptCompletion _ _
  · exact eventAnswer_acceptCompletion _ _
  · exact eventAnswer_acceptResult _
  · exact eventAnswer_acceptResult _
  · exact eventAnswer_acceptResult _
  · exact eventAnswer_ite (fun _ => eventAnswer_next _) eventAnswer_notPresentable

theorem present_eq_error {w : EventWord} {rest : List Move} {r : Refusal} (h : present w rest s = .error r) :
    r = .handlerContract ∨ ∃ e, r = .badEvent e := by
  unfold present at h
  split at h
  · split at h <;> cases h
    exact .inl rfl
  · cases h
    exact .inr ⟨_, rfl⟩

theorem fetch_eq_error {r : Refusal} (hwf : s.params.Wf) (h : fetch s = .error r) :
    r = .handlerContract ∨ (∃ e, r = .badEvent e) ∨ r = .noTransition ∨ r = .noInput := by
  have hmove {w : EventWord} {rest : List Move} (hpresent : present w rest s = .error r) :
      r = .handlerContract ∨ (∃ e, r = .badEvent e) ∨ r = .noTransition ∨ r = .noInput :=
    (present_eq_error hpresent).imp_right .inl
  unfold fetch at h
  rw [if_pos hwf] at h
  split at h
  · split at h <;> cases h
    exact .inr (.inr (.inr rfl))
  · split at h <;> cases h
    exact .inr (.inr (.inl rfl))
  · exact hmove h
  · split at h
    · cases h
    · exact hmove h

/-- A step of the invariant answers a next state, or a refusal that is the environment's or the script's. -/
theorem step_answers (h : BlockInv s) :
    EventAnswer (step s) ∨ ∃ r, step s = .refused r ∧
      (r = .handlerContract ∨ (∃ e, r = .badEvent e) ∨ r = .noTransition ∨ r = .noInput) := by
  match hfetch : fetch s with
  | .error r => exact .inr ⟨r, step_of_fetch_error hfetch, fetch_eq_error h.params hfetch⟩
  | .ok (i, u) =>
    rw [step_of_fetch_ok hfetch]
    obtain ⟨-, ⟨hi, script, rfl⟩ | ⟨w, rest, hi, -, rfl⟩⟩ := fetch_eq_ok hfetch
    · exact .inl (.inl (enabled_answers (blockInv_script_trace h script s.trace) hi))
    · exact .inl (event_answers (blockInv_script_trace h rest _) hi)

/-- Settles O53, by the answers that a step of the invariant can give. -/
theorem invariantStatesNeverFault : Obligations.InvariantStatesNeverFault := by
  intro s h
  obtain (⟨t, ht⟩ | hr | hr) | ⟨r, hr, hlisted⟩ := step_answers h
  · simp [ht]
  · simp [hr]
  · simp [hr]
  · rw [hr]
    refine ⟨nofun, ?_⟩
    rintro _ ⟨⟩
    exact .inr (.inr hlisted)

end Sys2Proof.Proofs
end

section
/-! The events' meanings (40_machine_step.md R156 to R160, 43_write_retry.md R256, 44_handshake.md R280 to R290,
45_message_pipeline.md R311, R316, R326, R327): the whole next state of each, and the refusals outside the acceptance
conditions. -/

namespace Sys2Proof.Proofs
open Sys2Proof.Machine Sys2Proof.Safety

/-- Settles O13: the minimum is a 64-bit number. -/
theorem timeAdditionSaturates : Obligations.TimeAdditionSaturates := fun _ _ =>
  Nat.mod_eq_of_lt (lt_of_le_of_lt (Nat.min_le_right ..) (by decide))

theorem startTx_eq_ite (m : Bytes) (now : Tick) :
    startTx m now = if m = [] then .done true else .busy m 0 now (.ready true now) := by
  split
  · rename_i h
    rw [h, startTx_nil]
  · rename_i h
    exact startTx_of_ne_nil h now

/-- Settles O18, by the four cases of R284 and R285. -/
theorem handshakeByte : Obligations.HandshakeByte := by
  intro s b hst hph
  have hquiet : s.quiescent = true := quiescent_iff.2 ⟨hph, .inl hst⟩
  have hrun {t : State} (h : rxByteHandshake b s = .next t) : exec (.rxByte b) s = .next t :=
    execRxByte_eq_next.2 ⟨hquiet, .inl ⟨hst, h⟩⟩
  refine ⟨fun hfull => hrun (rxByteHandshake_eq_next.2 (.inl ⟨hfull.ge, rfl⟩)),
    fun hroom hb => hrun (rxByteHandshake_eq_next.2 (.inr (.inl ⟨hroom, hb, rfl⟩))),
    fun hroom hb hwrong => hrun (rxByteHandshake_eq_next.2 (.inr (.inr (.inl ⟨hroom, hb, hwrong, rfl⟩)))),
    fun hroom hb hphrase hidle => hrun (rxByteHandshake_eq_next.2 (.inr (.inr (.inr ⟨hroom, hb, hphrase, ?_⟩))))⟩
  rw [← startTx_eq_ite]
  exact handshakeMatch_eq_next.2 ⟨hidle, rfl⟩

/-- Settles O19, below the capacity and at it. -/
theorem messageByte : Obligations.MessageByte := by
  intro s b hst hph hneed
  have hquiet : s.quiescent = true := quiescent_iff.2 ⟨hph, .inr ⟨hst, hneed⟩⟩
  have hrun {t : State} (h : rxByteMessage b s = .next t) : exec (.rxByte b) s = .next t :=
    execRxByte_eq_next.2 ⟨hquiet, .inr ⟨by simp [hst], h⟩⟩
  refine ⟨fun hroom => hrun (rxByteMessage_eq_next.2 (.inl ⟨hroom, rfl⟩)),
    fun hfull => hrun (rxByteMessage_eq_next.2 (.inr ⟨hfull.ge, ?_⟩))⟩
  exact (raise_of_run_of_ne .invalidChecksum { s with fb := [] } hph (by simp [hst])).symm

/-- A quiescent block is in phase Run and in no Error state. -/
theorem quiescent_run {s : State} (hquiet : s.quiescent = true) : s.ph = .run ∧ ∀ k, s.st ≠ .error k := by
  obtain ⟨hph, hst | ⟨hst, -⟩⟩ := quiescent_iff.1 hquiet <;> simp [hph, hst]

/-- Settles O20: a quiescent block is in no Error state, so the error is a change of the control state. -/
theorem overflowNoticeRaisesInvalidChecksum : Obligations.OverflowNoticeRaisesInvalidChecksum := by
  intro s hquiet
  obtain ⟨hph, hnot⟩ := quiescent_run hquiet
  exact execRxOverflow_eq_next.2 ⟨hquiet, (raise_of_run_of_ne _ { s with fb := [] } hph (hnot _)).symm⟩

/-- Settles O21, by whether the deadline has elapsed in WaitForHandshake. -/
theorem timeoutActsOnlyOnAnElapsedDeadline : Obligations.TimeoutActsOnlyOnAnElapsedDeadline := by
  intro s hquiet
  obtain ⟨hph, hnot⟩ := quiescent_run hquiet
  constructor
  · intro d hst hd hle
    refine execTimeout_eq_next.2 ⟨hquiet, .inl ⟨hst, deadlineElapsed_iff.2 ⟨d, hd, hle⟩, ?_⟩⟩
    exact (raise_of_run_of_ne .timeout { s with hsBuf := [], fb := [], hsDone := false } hph (hnot _)).symm
  · intro hidle
    refine execTimeout_eq_next.2 ⟨hquiet, .inr ⟨?_, rfl⟩⟩
    rintro ⟨hst, helapsed⟩
    obtain ⟨d, hd, hle⟩ := deadlineElapsed_iff.1 helapsed
    obtain hst' | hnone | ⟨d', hd', hlt⟩ := hidle
    · exact hst' hst
    · simp [hnone] at hd
    · obtain rfl : d = d' := by simpa [hd] using hd'
      exact BitVec.not_lt.2 hle hlt

/-! ### Completions -/

theorem setSt_run_of_ne {s : State} {x : SystemState} (hne : x ≠ s.st) :
    { s.setSt x with ph := .run } =
      { s with
        st := x
        ph := .run
        status := some (pat s x)
        trace := s.trace ++ [.statusWrite (pat s x)] } := by
  rw [State.setSt_of_ne s x hne]

theorem execOk_completes {s : State} {r : Bytes} (hst : s.st = .executeAction) (hph : s.ph = .awaitExec)
    (hr : r.length ≤ s.params.respCap) :
    exec (.execOk r) s = .next
      { s with
        resp := r
        cmd := none
        cmdBuf := []
        st := .sendResponse
        ph := .run
        status := some (pat s .sendResponse)
        trace := s.trace ++ [.statusWrite (pat s .sendResponse)] } :=
  execExecOk_eq_next.2 ⟨hst, hph, hr,
    (setSt_run_of_ne (s := { s with resp := r, cmd := none, cmdBuf := [] }) (by simp [hst])).symm⟩

theorem execErr_completes {s : State} {r : Bytes} (hst : s.st = .executeAction) (hph : s.ph = .awaitExec)
    (hr : r.length ≤ s.params.respCap) (k : ErrorKind) :
    exec (.execErr k r) s = .next
      { s with
        resp := r
        cmd := none
        cmdBuf := []
        st := .error k
        ph := .run
        status := some (pat s (.error k))
        trace := s.trace ++ [.statusWrite (pat s (.error k))] } :=
  execExecErr_eq_next.2 ⟨hst, hph, hr,
    (raise_of_ne k { s with resp := r, cmd := none, cmdBuf := [] } (by simp [hst])).symm⟩

theorem echoAnswer_eq (p : Params) (payload : Bytes) :
    echoAnswer p payload =
      if p.echoPrefix.length + payload.length ≤ p.respCap then .execOk (p.echoPrefix ++ payload)
      else .execErr .bufferProcessFailed [] := by
  rw [echoAnswer, List.length_append]

/-- Settles O22: the completions' next states, and the contract by the pending command. -/
theorem handlerCompletion : Obligations.HandlerCompletion := by
  refine ⟨fun s r hst hph hr => ⟨execOk_completes hst hph hr, execErr_completes hst hph hr⟩, ?_⟩
  intro s w rest i hwf hst hph hscript hevent hcompletion
  have hfetch := fetch_now hwf hscript
  have hpending : s.pendingCommand = s.cmd := if_pos ⟨hst, hph⟩
  have htaken (hkeeps : s.keepsContract i = true) :
      step s = exec i { s with script := rest, trace := s.trace ++ [.accepted i] } :=
    step_of_fetch_ok (hfetch.trans (present_of_contract hevent hkeeps))
  constructor
  · intro hcmd answer
    have hanswer : answer = echoAnswer s.params s.cmdBuf := (echoAnswer_eq ..).symm
    rw [hanswer]
    constructor
    · rintro rfl
      exact htaken (keepsContract_echoAnswer s)
    · intro hne
      have hbreaks : s.keepsContract i = false :=
        keepsContract_eq_false.2 ⟨hpending.trans hcmd, isCompletion_eq_true.2 hcompletion, hne⟩
      exact step_of_fetch_error (hfetch.trans (present_of_not_contract hevent hbreaks))
  · intro hi2c
    refine htaken (keepsContract_of_ne i ?_)
    rw [hpending]
    obtain ⟨a, r, l, hcmd⟩ | ⟨a, r, hcmd⟩ := hi2c <;> simp [hcmd]

/-! ### Transport and clock -/

theorem retryDeadline_le_elapsed {d now t0 : Tick} (h : t0 ≤ now) : d.toNat ≤ elapsed now t0 ↔ d ≤ now - t0 := by
  rw [BitVec.le_def, BitVec.toNat_sub_of_le h, elapsed]

/-- Settles O24: the elapsed time is the difference when the first attempt is not in the future. -/
theorem transportFull : Obligations.TransportFull := by
  intro s msg ci t0 htx ht0
  refine execTxResultFull_eq_next.2 ⟨msg, ci, t0, htx, ?_⟩
  simp only [retryDeadline_le_elapsed ht0]

/-- Settles O25, on both sides of `now`. -/
theorem timeOnlyMovesNow : Obligations.TimeOnlyMovesNow := fun _ _ =>
  ⟨fun hle => execTime_eq_next.2 ⟨hle, rfl⟩, fun hlt => if_neg (BitVec.not_le.2 hlt)⟩

theorem acceptResult_refused {s : State} (h : ∀ msg ci t0, s.tx ≠ .busy msg ci t0 .awaitResult)
    (k : Bytes → Nat → Tick → TxState) : acceptResult s k = .refused .notPresentable := by
  unfold acceptResult
  split
  · exact absurd ‹_› (h _ _ _)
  all_goals rfl

theorem acceptCompletion_refused {s : State} (h : ¬ (s.st = .executeAction ∧ s.ph = .awaitExec)) (r : Bytes)
    (k : State → State) : acceptCompletion r s k = .refused .notPresentable := if_neg h

theorem acceptCompletion_operandRefused {s : State} (hst : s.st = .executeAction) (hph : s.ph = .awaitExec) {r : Bytes}
    (hr : s.params.respCap < r.length) (k : State → State) : acceptCompletion r s k = .refused .operandRefused := by
  rw [acceptCompletion, if_pos ⟨hst, hph⟩, if_neg (Nat.not_le.2 hr)]

/-- Settles O26, condition by condition. -/
theorem eventsOutsideTheirConditionsAreRefused : Obligations.EventsOutsideTheirConditionsAreRefused := by
  intro s
  refine ⟨fun hbusy => ?_,
    fun hnot r => ⟨(exec_execOk r s).trans (acceptCompletion_refused hnot r _),
      fun k => acceptCompletion_refused hnot r _⟩,
    fun hst hph r hr => ⟨(exec_execOk r s).trans (acceptCompletion_operandRefused hst hph hr _),
      fun k => acceptCompletion_operandRefused hst hph hr _⟩,
    fun hnot => ⟨acceptResult_refused hnot _, acceptResult_refused hnot _, acceptResult_refused hnot _⟩⟩
  have hquiet : ¬ s.quiescent = true := by simp [hbusy]
  exact ⟨fun b => if_neg hquiet, if_neg hquiet, if_neg hquiet⟩

end Sys2Proof.Proofs
end

section
/-! The internal transitions' meanings (40_machine_step.md R154, 44_handshake.md R286, 45_message_pipeline.md R320 to
R331, 60_exceptions.md R363, 43_write_retry.md R254): the whole next state of each, and the observation view. -/

namespace Sys2Proof.Proofs
open Sys2Proof.Machine Sys2Proof.Safety

/-- Settles O28: the two rows wait for the same condition, and both change the control state. -/
theorem finishedTransmissionEntersWaitForMessage : Obligations.FinishedTransmissionEntersWaitForMessage := by
  intro s ok hph htx
  constructor
  · intro hst
    refine execHandshakeResponseDone_eq_next.2 ⟨hst, hph, ⟨ok, htx⟩, ?_⟩
    exact (setSt_run_of_ne (s := { s with tx := .idle }) (by simp [hst])).symm
  · intro hst
    refine execResponseSent_eq_next.2 ⟨hst, hph, ⟨ok, htx⟩, ?_⟩
    exact (setSt_run_of_ne (s := { s with tx := .idle, resp := [] }) (by simp [hst])).symm

/-- Settles O30: NeedMoreData is quiescence, and a quiescent pair has no row. -/
theorem needMoreDataTakesNoStep : Obligations.NeedMoreDataTakesNoStep := by
  intro s hst hph hneed
  have hquiet : s.quiescent = true := quiescent_iff.2 ⟨hph, .inr ⟨hst, hneed⟩⟩
  have hlegal : legalPair s.st s.ph = true := by simp [hst, hph, legalPair]
  refine ⟨hquiet, controlTransition_of_quiescent hlegal hquiet, fun hidle => ?_, fun b hroom => ?_⟩
  · have hnone := internalTransition_of_quiescent hlegal hquiet hidle
    exact ⟨hnone, fun hwf hscript => step_of_fetch_error (fetch_nil_none hwf hscript hnone)⟩
  · exact (messageByte s b hst hph hneed).1 hroom

/-! ### ParseCommand -/

section parse
variable {s : State} {f : FrameDesc} (hst : s.st = .parseCommand) (hconsumed : f.consumed ≤ s.fb.length)
include hst hconsumed

theorem finishParse_owned (c : CommandOwned) (buf : Bytes) :
    finishParse f (.ok (c, buf)) s = .next
      { s with
        cmdBuf := buf
        fb := s.fb.drop f.consumed
        fr := none
        cmd := some c
        st := .executeAction
        status := some (pat s .executeAction)
        trace := s.trace ++ [.statusWrite (pat s .executeAction)] } :=
  finishParse_eq_next.2 ⟨hconsumed, .inl ⟨c, buf, rfl, (State.setSt_of_ne
    { s with cmdBuf := buf, fb := s.fb.drop f.consumed, fr := none, cmd := some c } _ (by simp [hst])).symm⟩⟩

theorem finishParse_raised (hph : s.ph = .run) (k : ErrorKind) :
    finishParse f (.error k) s = .next
      { s with
        fb := s.fb.drop f.consumed
        fr := none
        st := .error k
        status := some (pat s (.error k))
        trace := s.trace ++ [.statusWrite (pat s (.error k))] } :=
  finishParse_eq_next.2 ⟨hconsumed, .inr ⟨k, rfl, (raise_of_run_of_ne k
    { s with fb := s.fb.drop f.consumed, fr := none } hph (by simp [hst])).symm⟩⟩

end parse

theorem exec_parseCommand_at {s : State} {f : FrameDesc} {P : Bytes} (hst : s.st = .parseCommand) (hph : s.ph = .run)
    (hfr : s.fr = some f) (hread : memRead s.fb f.off f.plen = some P) :
    exec .parseCommand s = finishParse f (parsePayload s.params.cmdCap P) s := by
  refine (execParseCommand_eq s).trans ?_
  rw [withFrame_at hst hph hfr]
  simp only [hread]

/-- Settles O31, by the outcome of `parse`. -/
theorem parseCommandRunsTheParse : Obligations.ParseCommandRunsTheParse := by
  intro s f P hst hph hfr hread hconsumed
  rw [exec_parseCommand_at hst hph hfr hread]
  constructor
  · intro c buf hparse
    rw [hparse, finishParse_owned hst hconsumed]
  · intro k hparse
    rw [hparse, finishParse_raised hst hconsumed hph]

theorem toOwned_echoWrite_of_le {cap : Nat} {q : Bytes} (h : q.length ≤ cap) :
    toOwned cap (.echoWrite q) = .ok (.echoWrite, q) := by
  simp [toOwned, copyInto_eq_some.2 ⟨h, rfl⟩]

theorem toOwned_echoWrite_of_lt {cap : Nat} {q : Bytes} (h : cap < q.length) :
    toOwned cap (.echoWrite q) = .error .bufferProcessFailed := by
  simp [toOwned, copyInto_eq_none.2 h]

theorem toOwned_i2cWrite_of_le {cap : Nat} {a r : Byte} {q : Bytes} (h : q.length ≤ cap) :
    toOwned cap (.i2cWrite a r q) = .ok (.i2cWrite a r, q) := by
  simp [toOwned, copyInto_eq_some.2 ⟨h, rfl⟩]

theorem toOwned_i2cWrite_of_lt {cap : Nat} {a r : Byte} {q : Bytes} (h : cap < q.length) :
    toOwned cap (.i2cWrite a r q) = .error .bufferProcessFailed := by
  simp [toOwned, copyInto_eq_none.2 h]

/-- Settles O32: each row drops the frame and makes of its operands what `to_owned` does. -/
theorem commandsBecomeOwnedOrRaise : Obligations.CommandsBecomeOwnedOrRaise := by
  intro s f hst hph hfr hconsumed owned raised
  have hrun (c : Command) : exec c.toInstr s = finishParse f (toOwned s.params.cmdCap c) s :=
    (exec_toInstr c s).trans (withFrame_at hst hph hfr)
  have howned (c : CommandOwned) (buf : Bytes) := finishParse_owned hst hconsumed c buf
  have hraised (k : ErrorKind) := finishParse_raised hst hconsumed hph k
  refine ⟨fun q hq => ?_, fun q hq => ?_, fun a r l => ?_, fun a r q hq => ?_, fun a r q hq => ?_, fun m o => ?_⟩
  · exact (hrun (.echoWrite q)).trans (toOwned_echoWrite_of_le hq ▸ howned _ _)
  · exact (hrun (.echoWrite q)).trans (toOwned_echoWrite_of_lt hq ▸ hraised _)
  · exact (hrun (.i2cRead a r l)).trans (howned _ _)
  · exact (hrun (.i2cWrite a r q)).trans (toOwned_i2cWrite_of_le hq ▸ howned _ _)
  · exact (hrun (.i2cWrite a r q)).trans (toOwned_i2cWrite_of_lt hq ▸ hraised _)
  · exact (withFrame_at hst hph hfr).trans (hraised _)

/-! ### Responses, errors and the engine -/

/-- Settles O33: the pair and the pending command are the whole condition. -/
theorem executeActionIssuesTheOwnedCommand : Obligations.ExecuteActionIssuesTheOwnedCommand := fun _ c hst hph hcmd =>
  execExecuteActionStart_eq_next.2 ⟨hst, hph, c, hcmd, rfl⟩

/-- Settles O34, by whether the response encodes. -/
theorem sendResponseFramesTheResponse : Obligations.SendResponseFramesTheResponse := by
  intro s hst hph
  refine ⟨fun F hF hidle => execSendResponseStart_eq_next.2 ⟨hst, hph, .inl ⟨F, hF, emit_frame hF hidle⟩⟩,
    fun hnone => execSendResponseStart_eq_next.2 ⟨hst, hph, .inr ⟨hnone, ?_⟩⟩⟩
  exact (raise_of_run_of_ne _ s hph (by simp [hst])).symm

/-- Settles O36, by whether the handshake stands. -/
theorem errorResolvesForward : Obligations.ErrorResolvesForward := by
  intro s k ok hst hph htx
  refine ⟨fun hhs => ?_, fun hhs => ?_⟩ <;> refine execErrorResolve_eq_next.2 ⟨k, hst, hph, ⟨ok, htx⟩, ?_⟩
  · rw [resolveError_done hhs, setSt_run_of_ne (by simp [hst])]
  · rw [resolveError_not_done hhs, setSt_run_of_ne (by simp [hst])]
    rfl

/-- Settles O37: a chunk that is due is the whole condition. -/
theorem attemptHandsOverOneChunk : Obligations.AttemptHandsOverOneChunk := fun _ msg ci t0 tn first htx hdue =>
  execTxAttempt_eq_next.2 ⟨msg, ci, t0, first, tn, htx, hdue, rfl⟩

/-! ### Refusals -/

section refusals
variable {s : State}

theorem whenAt_refused {st : SystemState} {ph : Phase} (h : ¬ (s.st = st ∧ s.ph = ph)) (k : Result) :
    whenAt st ph s k = .refused .notEnabled := if_neg h

theorem whenDone_refused (h : ¬ ∃ ok, s.tx = .done ok) (k : Result) : whenDone s k = .refused .notEnabled := by
  unfold whenDone
  split
  · exact absurd ⟨_, ‹_›⟩ h
  all_goals rfl

/-- A transition refused at its pair, or at its pair by its condition. -/
theorem whenAt_refused_of {st : SystemState} {ph : Phase} {c : Prop} {k : Result} (h : ¬ (s.st = st ∧ s.ph = ph ∧ c))
    (hk : ¬ c → k = .refused .notEnabled) : whenAt st ph s k = .refused .notEnabled := by
  by_cases hat : s.st = st ∧ s.ph = ph
  · rw [whenAt, if_pos hat]
    exact hk fun hc => h ⟨hat.1, hat.2, hc⟩
  · exact whenAt_refused hat k

theorem whenError_refused_of {ph : Phase} {c : Prop} {f : ErrorKind → Result}
    (h : ¬ ((∃ k, s.st = .error k) ∧ s.ph = ph ∧ c)) (hf : ¬ c → ∀ k, f k = .refused .notEnabled) :
    whenError ph s f = .refused .notEnabled := by
  unfold whenError
  split
  · rename_i k hst
    split
    · exact hf (fun hc => h ⟨⟨k, hst⟩, ‹_›, hc⟩) k
    · rfl
  all_goals rfl

theorem withFrame_refused (h : ¬ (s.st = .parseCommand ∧ s.ph = .run)) (k : FrameDesc → Result) :
    withFrame s k = .refused .notEnabled := if_neg h

theorem execTxAttempt_refused
    (h : ∀ msg ci t0 first tn, s.tx = .busy msg ci t0 (.ready first tn) → s.now < tn) :
    execTxAttempt s = .refused .notEnabled := by
  unfold execTxAttempt
  split
  · rename_i htx
    exact if_neg (BitVec.not_le.2 (h _ _ _ _ _ htx))
  all_goals rfl

end refusals

/-- Settles O38, by the guard of each row. -/
theorem disabledTransitionsAreRefused : Obligations.DisabledTransitionsAreRefused := by
  intro s
  refine ⟨fun h => whenAt_refused h _, fun h => whenAt_refused_of h fun hnot => whenDone_refused hnot _,
    fun h => whenAt_refused_of h fun hnot => ?_, fun h => whenAt_refused_of h fun hnot => ?_,
    fun h => ⟨withFrame_refused h _, fun _ => withFrame_refused h _, fun _ _ _ => withFrame_refused h _,
      fun _ _ _ => withFrame_refused h _, fun _ _ => withFrame_refused h _⟩,
    fun h => whenAt_refused h _, fun h => whenAt_refused h _,
    fun h => whenAt_refused_of h fun hnot => whenDone_refused hnot _,
    fun h => whenError_refused_of (c := True) (by simpa using h) (absurd trivial),
    fun h => whenError_refused_of h fun hnot _ => whenDone_refused hnot _, execTxAttempt_refused⟩
  · split
    · exact absurd ⟨_, ‹_›⟩ hnot
    all_goals rfl
  · split
    · exact absurd ‹_› hnot
    all_goals rfl

/-! ### Broken preconditions -/

theorem withFrame_noFrame {s : State} (hst : s.st = .parseCommand) (hph : s.ph = .run) (hfr : s.fr = none)
    (k : FrameDesc → Result) : withFrame s k = .fault .noFrame := by
  simp [withFrame, hst, hph, hfr]

theorem finishParse_compactRange {s : State} {f : FrameDesc} (h : s.fb.length < f.consumed)
    (r : Except ErrorKind (CommandOwned × Bytes)) : finishParse f r s = .fault .compactRange := by
  simp only [finishParse, compact_eq_none.2 h]

theorem exec_parseCommand_memReadRange {s : State} {f : FrameDesc} (hst : s.st = .parseCommand) (hph : s.ph = .run)
    (hfr : s.fr = some f) (hshort : s.fb.length < f.off + f.plen) : exec .parseCommand s = .fault .memReadRange := by
  refine (execParseCommand_eq s).trans ?_
  rw [withFrame_at hst hph hfr]
  simp only [memRead_eq_none.2 hshort]

theorem emit_busy {s : State} (htx : s.tx ≠ .idle) (m : Bytes) : emit m s = .fault .emitWhileBusy :=
  emit_eq_fault.2 ⟨htx, rfl⟩

theorem exec_rxByte_match {s : State} (hst : s.st = .waitForHandshake) (hph : s.ph = .run)
    (hphrase : s.hsBuf = s.params.handshakePhrase) (hroom : s.hsBuf.length < s.params.hsCap) :
    exec (.rxByte 0x0A) s = handshakeMatch s := by
  have hquiet : s.quiescent = true := quiescent_iff.2 ⟨hph, .inl hst⟩
  have hrun : exec (.rxByte 0x0A) s = rxByteHandshake 0x0A s := (if_pos hquiet).trans (if_pos hst)
  rw [hrun, rxByteHandshake, append_eq_some.2 ⟨hroom, rfl⟩]
  simp [hphrase]

theorem exec_sendResponseStart_frame {s : State} {F : Bytes} (hst : s.st = .sendResponse) (hph : s.ph = .run)
    (hF : encodeFrame s.params.txCap s.resp = some F) : exec .sendResponseStart s = emit F s := by
  refine (if_pos ⟨hst, hph⟩).trans ?_
  simp only [hF]

theorem whenError_at {s : State} {k : ErrorKind} {ph : Phase} (hst : s.st = .error k) (hph : s.ph = ph)
    (f : ErrorKind → Result) : whenError ph s f = f k := by
  simp [whenError, hst, hph]

/-- Settles O39, by the precondition that each rule states. -/
theorem brokenPreconditionsStopByName : Obligations.BrokenPreconditionsStopByName := by
  intro s
  refine ⟨fun hst hph => ⟨fun hfr => ?_, fun f hfr hshort => exec_parseCommand_memReadRange hst hph hfr hshort,
      fun f hfr hshort => ?_⟩,
    fun hst hph hcmd => (if_pos ⟨hst, hph⟩).trans (by simp only [hcmd]), fun hbusy hph => ⟨?_, ?_, ?_⟩,
    fun k hst hph hnone => (whenError_at hst hph _).trans (by simp only [hnone])⟩
  · have hnoFrame := withFrame_noFrame hst hph hfr
    exact ⟨hnoFrame _, fun _ => hnoFrame _, fun _ _ _ => hnoFrame _, fun _ _ _ => hnoFrame _, fun _ _ => hnoFrame _⟩
  · have hrange := finishParse_compactRange hshort
    have hframe (k : FrameDesc → Result) : withFrame s k = k f := withFrame_at hst hph hfr
    refine ⟨fun hinside => (exec_parseCommand_at hst hph hfr (memRead_eq_some.2 ⟨hinside, rfl⟩)).trans (hrange _),
      fun _ => (hframe _).trans (hrange _), fun _ _ _ => (hframe _).trans (hrange _),
      fun _ _ _ => (hframe _).trans (hrange _), fun _ _ => (hframe _).trans (hrange _)⟩
  · exact fun hst hphrase hroom => (exec_rxByte_match hst hph hphrase hroom).trans
      (emit_busy (s := { s with hsDone := true, deadline := none, hsBuf := [], fb := [] }) hbusy _)
  · exact fun F hst hF => (exec_sendResponseStart_frame hst hph hF).trans (emit_busy hbusy F)
  · exact fun k F hst hF => (whenError_at hst hph _).trans (by simp only [hF, emit_busy hbusy F])

/-! ### Observation -/

theorem errKind_eq_zero {s : State} (h : ∀ k, s.st ≠ .error k) : s.errKind = 0 := by
  unfold State.errKind
  split
  · exact absurd ‹_› (h _)
  all_goals rfl

/-- Settles O48, output by output. -/
theorem observationView : Obligations.ObservationView := by
  intro s
  refine ⟨?_, ?_, fun k hst => by simp only [State.observe, State.errKind, hst], errKind_eq_zero, quiescent_iff,
    decide_eq_true_iff, rfl, rfl, rfl, rfl, rfl, rfl⟩
  · cases hst : s.st <;> simp [State.observe, hst, SystemState.code]
  · cases hph : s.ph <;> simp [State.observe, hph, Phase.code]

end Sys2Proof.Proofs
end

section
/-! The host's text encoder (42_command_codec.md R230 to R239): what a text that encodes looks like, and the command its
bytes decode to. -/

namespace Sys2Proof.Proofs
open Sys2Proof.Machine

theorem nums_cons {t : Bytes} {ts : List Bytes} {bs : Bytes} :
    nums (t :: ts) = some bs ↔ ∃ b bs', num t = some b ∧ nums ts = some bs' ∧ bs = b :: bs' := by
  rw [nums]
  cases num t <;> cases nums ts <;> simp [eq_comm]

theorem nums_length {ts : List Bytes} : ∀ {bs : Bytes}, nums ts = some bs → bs.length = ts.length := by
  induction ts with
  | nil => rintro bs ⟨⟩; rfl
  | cons t ts ih =>
    intro bs h
    obtain ⟨b, bs', -, hts, rfl⟩ := nums_cons.1 h
    rw [List.length_cons, List.length_cons, ih hts]

theorem encodeEcho_eq_some {args : List Bytes} {P : Bytes} (h : encodeEcho args = some P) :
    ∃ arg args', args = arg :: args' ∧ P = 0x01 :: 0x02 :: joinTokens (arg :: args') := by
  match args with
  | [] => cases h
  | arg :: args' => cases h; exact ⟨arg, args', rfl, rfl⟩

theorem encodeI2cRead_eq_some {args : List Bytes} {P : Bytes} (h : encodeI2cRead args = some P) :
    ∃ a r l va vr vl, args = [a, r, l] ∧ num a = some va ∧ num r = some vr ∧ num l = some vl ∧
      P = [0x02, 0x01, va, vr, vl] := by
  unfold encodeI2cRead at h
  split at h
  · rename_i hlen
    obtain ⟨a, r, l, rfl⟩ := List.length_eq_three.1 hlen
    obtain ⟨bs, hbs, rfl⟩ := Option.map_eq_some_iff.1 h
    obtain ⟨va, bs₁, ha, hrest₁, rfl⟩ := nums_cons.1 hbs
    obtain ⟨vr, bs₂, hr, hrest₂, rfl⟩ := nums_cons.1 hrest₁
    obtain ⟨vl, bs₃, hl, hrest₃, rfl⟩ := nums_cons.1 hrest₂
    cases hrest₃
    exact ⟨a, r, l, va, vr, vl, rfl, ha, hr, hl, rfl⟩
  · cases h

theorem encodeI2cWrite_eq_some {args : List Bytes} {P : Bytes} (h : encodeI2cWrite args = some P) :
    ∃ a r d ds va vr vds, args = a :: r :: d :: ds ∧ num a = some va ∧ num r = some vr ∧ nums (d :: ds) = some vds ∧
      P = 0x02 :: 0x02 :: va :: vr :: vds := by
  unfold encodeI2cWrite at h
  split at h
  · rename_i hlen
    match args with
    | [] | [_] | [_, _] => simp at hlen
    | a :: r :: d :: ds =>
      obtain ⟨bs, hbs, rfl⟩ := Option.map_eq_some_iff.1 h
      obtain ⟨va, bs₁, ha, hrest₁, rfl⟩ := nums_cons.1 hbs
      obtain ⟨vr, vds, hr, hds, rfl⟩ := nums_cons.1 hrest₁
      exact ⟨a, r, d, ds, va, vr, vds, rfl, ha, hr, hds, rfl⟩
  · cases h

/-- The three forms of a text that encodes (R233 to R236). -/
theorem hostEncode_eq_some {x P : Bytes} (h : hostEncode x = some P) :
    (∃ args, tokens x = kwEcho :: args ∧ encodeEcho args = some P) ∨
      (∃ args, tokens x = kwI2c :: kwRead :: args ∧ encodeI2cRead args = some P) ∨
      ∃ args, tokens x = kwI2c :: kwWrite :: args ∧ encodeI2cWrite args = some P := by
  unfold hostEncode at h
  split at h
  · cases h
  · rename_i m args htokens
    split at h
    · rename_i hm
      exact .inl ⟨args, hm ▸ htokens, h⟩
    · split at h
      · rename_i hm
        split at h
        · cases h
        · rename_i op rest
          split at h
          · rename_i hop
            exact .inr (.inl ⟨rest, hm ▸ hop ▸ htokens, h⟩)
          · split at h
            · rename_i hop
              exact .inr (.inr ⟨rest, hm ▸ hop ▸ htokens, h⟩)
            · cases h
      · cases h

/-- Settles O59, form by form. -/
theorem hostTextDecodesToItsCommand : Obligations.HostTextDecodesToItsCommand := by
  intro x P h
  obtain ⟨args, htokens, henc⟩ | ⟨args, htokens, henc⟩ | ⟨args, htokens, henc⟩ := hostEncode_eq_some h
  · obtain ⟨arg, args', rfl, rfl⟩ := encodeEcho_eq_some henc
    exact .inl ⟨arg, args', htokens, cmdDecode_echoWrite _⟩
  · obtain ⟨a, r, l, va, vr, vl, rfl, ha, hr, hl, rfl⟩ := encodeI2cRead_eq_some henc
    exact .inr (.inl ⟨a, r, l, va, vr, vl, htokens, ha, hr, hl, cmdDecode_i2cRead va vr vl []⟩)
  · obtain ⟨a, r, d, ds, va, vr, vds, rfl, ha, hr, hds, rfl⟩ := encodeI2cWrite_eq_some henc
    exact .inr (.inr ⟨a, r, d, ds, va, vr, vds, htokens, ha, hr, hds, nums_length hds, cmdDecode_i2cWrite va vr vds⟩)

end Sys2Proof.Proofs
end

section
/-! Runs (40_machine_step.md R151, R162): a run of steps with what it sends and issues, composed end to end, and the two
kinds of step that the runs are made of: an enabled transition, and an event held back until there is none. -/

namespace Sys2Proof.Proofs
open Sys2Proof.Machine Sys2Proof.Safety

/-- `n` steps from `s` end in `t`, hand the bytes `out` to the transport and issue the requests `req`. -/
structure Runs (n : Nat) (s t : State) (out : Bytes) (req : List (CommandOwned × Bytes)) : Prop where
  run : Sys2Proof.core.run n s = .next t
  sent : sentBytes t.trace = sentBytes s.trace ++ out
  issued : issued t.trace = issued s.trace ++ req

theorem run_succ {s u : State} (h : step s = .next u) (n : Nat) :
    Sys2Proof.core.run (n + 1) s = Sys2Proof.core.run n u := by
  have hstep : Sys2Proof.core.step s = .next u := h
  simp only [Host.Core.run, hstep]

theorem run_succ_eq_next {s t : State} {n : Nat} (h : Sys2Proof.core.run (n + 1) s = .next t) :
    ∃ u, step s = .next u ∧ Sys2Proof.core.run n u = .next t := by
  cases hstep : Sys2Proof.core.step s with
  | next u => exact ⟨u, hstep, by simpa only [Host.Core.run, hstep] using h⟩
  | fault r => simp only [Host.Core.run, hstep, reduceCtorEq] at h
  | refused r => simp only [Host.Core.run, hstep, reduceCtorEq] at h

theorem run_add {m n : Nat} : ∀ {s u : State}, Sys2Proof.core.run m s = .next u →
    Sys2Proof.core.run (m + n) s = Sys2Proof.core.run n u := by
  induction m with
  | zero =>
    rintro s u ⟨⟩
    rw [Nat.zero_add]
  | succ m ih =>
    intro s u h
    obtain ⟨v, hstep, hrun⟩ := run_succ_eq_next h
    rw [Nat.succ_add]
    exact (run_succ hstep (m + n)).trans (ih hrun)

theorem runs_refl (s : State) : Runs 0 s s [] [] := ⟨rfl, (List.append_nil _).symm, (List.append_nil _).symm⟩

theorem runs_trans {m n : Nat} {s u t : State} {out₁ out₂ : Bytes} {req₁ req₂ : List (CommandOwned × Bytes)}
    (h₁ : Runs m s u out₁ req₁) (h₂ : Runs n u t out₂ req₂) : Runs (m + n) s t (out₁ ++ out₂) (req₁ ++ req₂) :=
  ⟨(run_add h₁.run).trans h₂.run, by rw [h₂.sent, h₁.sent, List.append_assoc],
    by rw [h₂.issued, h₁.issued, List.append_assoc]⟩

/-- A step that adds `items` to the transcript. -/
theorem runs_step {s t : State} {items : List TraceItem} (h : step s = .next t) (htrace : t.trace = s.trace ++ items) :
    Runs 1 s t (sentBytes items) (issued items) :=
  ⟨run_succ h 0, by rw [htrace, sentBytes_append], by rw [htrace, issued_append]⟩

section steps
variable {s t : State} {w : EventWord} {rest : List Move} {i : Instr} {items : List TraceItem}

/-- The head of the script does not present an event while a transition is enabled. -/
def HoldsBack (script : List Move) : Prop := script = [] ∨ ∃ w rest, script = .whenIdle w :: rest

theorem runs_enabled (hwf : s.params.Wf) (hscript : HoldsBack s.script) (hsome : s.internalTransition = some i)
    (hexec : exec i s = .next t) (htrace : t.trace = s.trace ++ items) :
    Runs 1 s t (sentBytes items) (issued items) := by
  refine runs_step ?_ htrace
  obtain hnil | ⟨w, rest, hhead⟩ := hscript
  · rw [step_of_fetch_ok (fetch_nil_runs hwf hnil hsome), hexec]
  · rw [step_of_fetch_ok (fetch_whenIdle_runs hwf hhead hsome), hexec]

theorem runs_whenIdle (hwf : s.params.Wf) (hscript : s.script = .whenIdle w :: rest)
    (hnone : s.internalTransition = none) (hevent : decodeEvent w = .ok i) (hkeeps : s.keepsContract i = true)
    (hexec : exec i { s with script := rest, trace := s.trace ++ [.accepted i] } = .next t)
    (htrace : t.trace = s.trace ++ [.accepted i] ++ items) : Runs 1 s t (sentBytes items) (issued items) := by
  have hstep : step s = .next t := by
    rw [step_of_fetch_ok ((fetch_whenIdle_waits hwf hscript hnone).trans (present_of_contract hevent hkeeps)), hexec]
  rw [List.append_assoc] at htrace
  exact runs_step (items := [.accepted i] ++ items) hstep htrace

end steps

/-! ### Enabled transitions -/

/-- The control logic goes first, so its row is the enabled transition. -/
theorem runs_row {s t : State} {i : Instr} {items : List TraceItem} (hwf : s.params.Wf) (hscript : HoldsBack s.script)
    (hrow : s.controlTransition = some i) (hexec : exec i s = .next t) (htrace : t.trace = s.trace ++ items) :
    Runs 1 s t (sentBytes items) (issued items) :=
  runs_enabled hwf hscript (internalTransition_eq_some.2 (.inl hrow)) hexec htrace

theorem legalPair_of_quiescent {s : State} (hquiet : s.quiescent = true) : legalPair s.st s.ph = true := by
  obtain ⟨hph, hst | ⟨hst, -⟩⟩ := quiescent_iff.1 hquiet <;> simp [hph, hst, legalPair]

/-! ### Received bytes -/

/-- The transcript of received bytes. -/
def received (bs : Bytes) : List TraceItem := bs.map fun b => .accepted (.rxByte b)

theorem rxMoves_append (bs cs : Bytes) : rxMoves (bs ++ cs) = rxMoves bs ++ rxMoves cs := List.map_append

/-- In `v` the byte `b` is taken and leads to `v'`, whatever the script and the transcript. -/
structure Receives (v : State) (b : Byte) (v' : State) : Prop where
  params : v.params.Wf
  quiescent : v.quiescent = true
  idle : v.tx = .idle
  exec : ∀ script trace,
    exec (.rxByte b) { v with script := script, trace := trace } = .next { v' with script := script, trace := trace }

theorem runs_rxByte {v v' : State} {b : Byte} (h : Receives v b v') (rest : List Move) (trace : List TraceItem) :
    Runs 1 { v with script := rxMoves [b] ++ rest, trace := trace }
      { v' with script := rest, trace := trace ++ received [b] } [] [] := by
  have hquiet : State.quiescent { v with script := rxMoves [b] ++ rest, trace := trace } = true := h.quiescent
  have hnone := internalTransition_of_quiescent (legalPair_of_quiescent hquiet) hquiet h.idle
  exact runs_whenIdle (items := []) h.params rfl hnone rfl (keepsContract_of_not_completion rfl)
    (h.exec rest (trace ++ received [b])) (List.append_nil _).symm

/-- Bytes that are each taken after the ones before them: `u pre` is the state once `pre` is received. -/
theorem runs_rxMoves {u : Bytes → State} (rest : List Move) {post : Bytes} : ∀ {pre : Bytes} (trace : List TraceItem),
    (∀ mid b, mid ++ [b] <+: post → Receives (u (pre ++ mid)) b (u (pre ++ mid ++ [b]))) →
      Runs post.length { u pre with script := rxMoves post ++ rest, trace := trace }
        { u (pre ++ post) with script := rest, trace := trace ++ received post } [] [] := by
  induction post with
  | nil =>
    intro pre trace _
    simpa [rxMoves, received] using runs_refl { u pre with script := rest, trace := trace }
  | cons b post ih =>
    intro pre trace h
    have hfirst : Receives (u pre) b (u (pre ++ [b])) := by
      simpa using h [] b (List.prefix_append [b] post)
    have hrest := ih (pre := pre ++ [b]) (trace ++ received [b]) fun mid c hmid => by
      simpa using h (b :: mid) c (List.cons_prefix_cons.2 ⟨rfl, hmid⟩)
    have hrun := runs_trans (runs_rxByte hfirst (rxMoves post ++ rest) trace) hrest
    simpa [rxMoves, received, Nat.add_comm] using hrun

/-- The same from a state whose script presents the bytes, with the buffer still empty. -/
theorem runs_rxMoves_from {s : State} {u : Bytes → State} {bs : Bytes} {rest : List Move} (hs : u [] = s)
    (hscript : s.script = rxMoves bs ++ rest)
    (h : ∀ mid b, mid ++ [b] <+: bs → Receives (u mid) b (u (mid ++ [b]))) :
    Runs bs.length s { u bs with script := rest, trace := s.trace ++ received bs } [] [] := by
  have hrun := runs_rxMoves (u := u) (pre := []) rest s.trace (by simpa using h)
  rwa [hs, ← hscript] at hrun

end Sys2Proof.Proofs
end

section
/-! Lines during the handshake (44_handshake.md R284, R285): the bytes of a line are collected one by one, and its
delimiter completes the handshake or discards the line. -/

namespace Sys2Proof.Proofs
open Sys2Proof.Machine Sys2Proof.Safety

section line
variable {s : State} {line : Bytes} (hwf : s.params.Wf) (hst : s.st = .waitForHandshake) (hph : s.ph = .run)
  (hidle : s.tx = .idle)
include hwf hst hph hidle

theorem receives_line_byte {B : Bytes} {b : Byte} (hroom : B.length < s.params.hsCap) (hb : b ≠ 0x0A) :
    Receives { s with hsBuf := B } b { s with hsBuf := B ++ [b] } where
  params := hwf
  quiescent := quiescent_iff.2 ⟨hph, .inl hst⟩
  idle := hidle
  exec script trace := by
    obtain ⟨-, hordinary, -, -⟩ := handshakeByte { s with hsBuf := B, script := script, trace := trace } b hst hph
    exact hordinary hroom hb

/-- A line without a delimiter, up to the capacity, is collected. -/
theorem runs_line (hbuf : s.hsBuf = []) (hline : (0x0A : Byte) ∉ line) (hcap : line.length ≤ s.params.hsCap)
    {rest : List Move} (hscript : s.script = rxMoves line ++ rest) :
    Runs line.length s { s with hsBuf := line, script := rest, trace := s.trace ++ received line } [] [] := by
  refine runs_rxMoves_from (u := fun B => { s with hsBuf := B }) (by rw [← hbuf]) hscript fun mid b hmid => ?_
  have hlen := hmid.length_le
  rw [List.length_append, List.length_singleton] at hlen
  have hb : b ≠ 0x0A := by
    rintro rfl
    exact hline (hmid.subset (by simp))
  exact receives_line_byte hwf hst hph hidle (by omega) hb

end line

/-- The delimiter of the line in the buffer, once the line is collected. -/
theorem runs_delimiter {s t : State} {line : Bytes} {rest : List Move} (hwf : s.params.Wf)
    (hst : s.st = .waitForHandshake) (hph : s.ph = .run) (hidle : s.tx = .idle) (hbuf : s.hsBuf = [])
    (hline : (0x0A : Byte) ∉ line) (hcap : line.length ≤ s.params.hsCap)
    (hscript : s.script = rxMoves (line ++ [0x0A]) ++ rest)
    (hexec : exec (.rxByte 0x0A)
      { s with hsBuf := line, script := rest, trace := s.trace ++ received line ++ received [0x0A] } = .next t)
    (htrace : t.trace = s.trace ++ received line ++ received [0x0A]) : Runs (line.length + 1) s t [] [] := by
  rw [rxMoves_append, List.append_assoc] at hscript
  refine runs_trans (runs_line hwf hst hph hidle hbuf hline hcap hscript)
    (runs_whenIdle (items := []) hwf rfl ?_ rfl (keepsContract_of_not_completion rfl) hexec
      (htrace.trans (List.append_nil _).symm))
  have hquiet : State.quiescent { s with
      hsBuf := line, script := rxMoves [0x0A] ++ rest, trace := s.trace ++ received line } = true :=
    quiescent_iff.2 ⟨hph, .inl hst⟩
  exact internalTransition_of_quiescent (legalPair_of_quiescent hquiet) hquiet hidle

/-- Settles O55: the phrase is collected, and its delimiter is the match. -/
theorem phraseCompletesTheHandshake : Obligations.PhraseCompletesTheHandshake := by
  intro s rest hwf hst hph hbuf hidle hscript
  have ⟨_, hphrase, _, hcap, _⟩ := hwf
  have hmatch := handshakeMatch_eq_next (s := { s with
    hsBuf := s.params.handshakePhrase, script := rest
    trace := s.trace ++ received s.params.handshakePhrase ++ received [0x0A] }).2 ⟨hidle, rfl⟩
  have hexec := (exec_rxByte_match (s := { s with
    hsBuf := s.params.handshakePhrase, script := rest
    trace := s.trace ++ received s.params.handshakePhrase ++ received [0x0A] }) hst hph rfl hcap).trans hmatch
  have hrun := runs_delimiter hwf hst hph hidle hbuf hphrase (by omega) hscript hexec rfl
  exact ⟨_, hrun.run, rfl, rfl, hst, rfl, rfl, rfl⟩

/-- Settles O56: the line is collected and cleared at its delimiter. -/
theorem wrongLineIsDiscarded : Obligations.WrongLineIsDiscarded := by
  intro s line rest hwf hst hph hbuf hidle hline hcap hwrong hscript
  obtain ⟨-, -, hclear, -⟩ := handshakeByte
    { s with hsBuf := line, script := rest, trace := s.trace ++ received line ++ received [0x0A] } 0x0A hst hph
  have hrun := runs_delimiter hwf hst hph hidle hbuf hline hcap.le hscript (hclear hcap rfl hwrong) rfl
  refine ⟨_, hrun.run, by rw [← hbuf], ?_⟩
  rw [hrun.sent, List.append_nil]

end Sys2Proof.Proofs
end

section
/-! A frame presented byte by byte (45_message_pipeline.md R311, R313, R320): its proper prefixes need more data, so it
is reassembled, and its end makes it the parser's. -/

namespace Sys2Proof.Proofs
open Sys2Proof.Machine Sys2Proof.Safety

theorem decodeFrame_of_proper_prefix {F mid : Bytes} {b : Byte} {f : FrameDesc} (hF : decodeFrame F = .frame f)
    (hwhole : f.consumed = F.length) (hmid : mid ++ [b] <+: F) : decodeFrame mid = .needMoreData := by
  obtain ⟨x, rfl⟩ := hmid
  rw [List.append_assoc] at hF hwhole
  cases hdecode : decodeFrame mid with
  | needMoreData => rfl
  | malformed =>
    rw [decodeFrame_append_of_malformed _ hdecode] at hF
    cases hF
  | frame f' =>
    rw [decodeFrame_append_of_frame _ hdecode] at hF
    cases hF
    obtain ⟨-, hinside, -, -⟩ := decodeFrame_bounds hdecode
    simp only [List.length_append, List.length_singleton] at hwhole
    omega

theorem decodeFrame_frame {P : Bytes} (hP : P.length < 2 ^ 32) :
    decodeFrame (varintEncode P.length ++ P) =
      .frame ⟨plen P.length, P.length, (varintEncode P.length ++ P).length⟩ := by
  simpa using decodeFrame_frame_append hP []

theorem memRead_frame (P : Bytes) : memRead (varintEncode P.length ++ P) (plen P.length) P.length = some P := by
  simpa using memRead_frame_append P []

theorem runs_frameReady {v : State} {f : FrameDesc} (hwf : v.params.Wf) (hst : v.st = .waitForMessage)
    (hph : v.ph = .run) (hframe : decodeFrame v.fb = .frame f) (hscript : HoldsBack v.script) :
    Runs 1 v
      { v with
        fr := some f
        st := .parseCommand
        status := some (pat v .parseCommand)
        trace := v.trace ++ [.statusWrite (pat v .parseCommand)] } [] [] := by
  have hrow : v.controlTransition = some .frameReady :=
    (controlTransitionTable v _ (by simp [hst, hph, legalPair])).2 (by simp [hst, hph, hframe])
  obtain ⟨hready, -⟩ := frameReadyAndMalformed v hst hph
  exact runs_row (items := [.statusWrite (pat v .parseCommand)]) hwf hscript hrow (hready f hframe) rfl

theorem runs_parseCommand {v t : State} (hwf : v.params.Wf) (hst : v.st = .parseCommand) (hph : v.ph = .run)
    (hscript : HoldsBack v.script) (hexec : exec .parseCommand v = .next t) {p : Pattern}
    (htrace : t.trace = v.trace ++ [.statusWrite p]) : Runs 1 v t [] [] := by
  have hrow : v.controlTransition = some .parseCommand :=
    (controlTransitionTable v _ (by simp [hst, hph, legalPair])).2 (by simp [hst, hph])
  exact runs_row hwf hscript hrow hexec htrace

/-- `s` once the frame of `P` is reassembled and described (R313). -/
def reassembled (s : State) (P : Bytes) (rest : List Move) : State :=
  { s with
    fb := varintEncode P.length ++ P
    fr := some ⟨plen P.length, P.length, (varintEncode P.length ++ P).length⟩
    st := .parseCommand
    status := some (pat s .parseCommand)
    script := rest
    trace := s.trace ++ received (varintEncode P.length ++ P) ++ [.statusWrite (pat s .parseCommand)] }

section frame
variable {s : State} (hwf : s.params.Wf) (hst : s.st = .waitForMessage) (hph : s.ph = .run) (hidle : s.tx = .idle)
include hwf hst hph hidle

theorem receives_message_byte {B : Bytes} {b : Byte} (hneed : decodeFrame B = .needMoreData)
    (hroom : B.length < s.params.fbCap) : Receives { s with fb := B } b { s with fb := B ++ [b] } where
  params := hwf
  quiescent := quiescent_iff.2 ⟨hph, .inr ⟨hst, hneed⟩⟩
  idle := hidle
  exec script trace :=
    (messageByte { s with fb := B, script := script, trace := trace } b hst hph hneed).1 hroom

theorem runs_frame_bytes {F : Bytes} {f : FrameDesc} {rest : List Move} (hfb : s.fb = [])
    (hF : decodeFrame F = .frame f) (hwhole : f.consumed = F.length) (hcap : F.length ≤ s.params.fbCap)
    (hscript : s.script = rxMoves F ++ rest) :
    Runs F.length s { s with fb := F, script := rest, trace := s.trace ++ received F } [] [] := by
  refine runs_rxMoves_from (u := fun B => { s with fb := B }) (by rw [← hfb]) hscript fun mid b hmid => ?_
  have hlen := hmid.length_le
  rw [List.length_append, List.length_singleton] at hlen
  exact receives_message_byte hwf hst hph hidle (decodeFrame_of_proper_prefix hF hwhole hmid) (by omega)

theorem runs_reassembled {P : Bytes} {rest : List Move} (hfb : s.fb = []) (hP : P.length < 2 ^ 32)
    (hcap : plen P.length + P.length ≤ s.params.fbCap)
    (hscript : s.script = rxMoves (varintEncode P.length ++ P) ++ rest) (hrest : HoldsBack rest) :
    Runs (plen P.length + P.length + 1) s (reassembled s P rest) [] [] := by
  have hlength : (varintEncode P.length ++ P).length = plen P.length + P.length := by rw [List.length_append, plen]
  have hbytes := runs_frame_bytes hwf hst hph hidle hfb (decodeFrame_frame hP) rfl (hlength ▸ hcap) hscript
  rw [hlength] at hbytes
  exact runs_trans hbytes (runs_frameReady hwf hst hph (decodeFrame_frame hP) hrest)

end frame

section parser
variable {s : State} {P : Bytes} {rest : List Move} (hwf : s.params.Wf) (hst : s.st = .waitForMessage)
  (hph : s.ph = .run) (hidle : s.tx = .idle) (hfb : s.fb = []) (hP : P.length < 2 ^ 32)
  (hcap : plen P.length + P.length ≤ s.params.fbCap)
  (hscript : s.script = rxMoves (varintEncode P.length ++ P) ++ rest) (hrest : HoldsBack rest)
include hwf hst hph hidle hfb hP hcap hscript hrest

theorem runs_owned {c : CommandOwned} {buf : Bytes} (hparse : parsePayload s.params.cmdCap P = .ok (c, buf)) :
    ∃ trace, Runs (plen P.length + P.length + 2) s
      { s with
        cmdBuf := buf
        fb := []
        fr := none
        cmd := some c
        st := .executeAction
        status := some (pat s .executeAction)
        script := rest
        trace := trace } [] [] := by
  obtain ⟨hok, -⟩ := parseCommandRunsTheParse (reassembled s P rest) _ P rfl hph rfl (memRead_frame P) le_rfl
  have hexec := hok c buf hparse
  dsimp only [reassembled] at hexec
  rw [List.drop_length] at hexec
  exact ⟨_, runs_trans (runs_reassembled hwf hst hph hidle hfb hP hcap hscript hrest)
    (runs_parseCommand hwf rfl hph hrest hexec rfl)⟩

theorem runs_raised {k : ErrorKind} (hparse : parsePayload s.params.cmdCap P = .error k) :
    ∃ trace, Runs (plen P.length + P.length + 2) s
      { s with
        fb := []
        fr := none
        st := .error k
        status := some (pat s (.error k))
        script := rest
        trace := trace } [] [] := by
  obtain ⟨-, herror⟩ := parseCommandRunsTheParse (reassembled s P rest) _ P rfl hph rfl (memRead_frame P) le_rfl
  have hexec := herror k hparse
  dsimp only [reassembled] at hexec
  rw [List.drop_length] at hexec
  exact ⟨_, runs_trans (runs_reassembled hwf hst hph hidle hfb hP hcap hscript hrest)
    (runs_parseCommand hwf rfl hph hrest hexec rfl)⟩

end parser

/-- Settles O57, by the outcome of `parse`. -/
theorem frameBytesReachTheParser : Obligations.FrameBytesReachTheParser := by
  intro s P rest hwf hst hph hfb hidle hP hcap hscript hrest
  match hparse : parsePayload s.params.cmdCap P with
  | .ok (c, buf) =>
    obtain ⟨trace, hrun⟩ := runs_owned hwf hst hph hidle hfb hP hcap hscript hrest hparse
    refine ⟨_, hrun.run, rfl, rfl, rfl, hph, rfl, ?_, nofun⟩
    rintro _ _ ⟨⟩
    exact ⟨rfl, rfl, rfl⟩
  | .error k =>
    obtain ⟨trace, hrun⟩ := runs_raised hwf hst hph hidle hfb hP hcap hscript hrest hparse
    refine ⟨_, hrun.run, rfl, rfl, rfl, hph, rfl, nofun, ?_⟩
    rintro _ ⟨⟩
    exact ⟨rfl, rfl, rfl⟩

end Sys2Proof.Proofs
end

section
/-! Sending (43_write_retry.md R253 to R255) and the end-to-end run (45_message_pipeline.md R334, 40_machine_step.md
section 6): a message whose chunks are all accepted, and a framed EchoWrite from its first byte to the block's return to
WaitForMessage. -/

namespace Sys2Proof.Proofs
open Sys2Proof.Machine Sys2Proof.Safety

/-- The transport's acceptance of a chunk, presented when the engine waits for it. -/
def acceptMove : Move := .whenIdle { code := 6, x := 0 }

/-! ### The transmit engine -/

theorem controlTransition_of_not_done {s : State} (hph : s.ph = .awaitTx) (htx : ∀ ok, s.tx ≠ .done ok) :
    s.controlTransition = none :=
  if_pos ⟨hph, fun hcode => not_exists.2 htx (txState_code_done.1 hcode)⟩

theorem runs_attempt {s : State} {msg : Bytes} {ci : Nat} {t0 : Tick} (hwf : s.params.Wf) (hph : s.ph = .awaitTx)
    (htx : s.tx = .busy msg ci t0 (.ready true s.now)) (hscript : HoldsBack s.script) :
    Runs 1 s
      { s with
        tx := .busy msg ci s.now .awaitResult
        trace := s.trace ++ [.txChunk (chunk s.params.maxPacket msg ci)] } (chunk s.params.maxPacket msg ci) [] := by
  have hready : s.internalTransition = some .txAttempt :=
    internalTransition_eq_some.2 (.inr ⟨controlTransition_of_not_done hph (by simp [htx]),
      transmitTransition_eq_some.2 ⟨rfl, msg, ci, t0, true, s.now, htx, BitVec.le_refl _⟩⟩)
  have hattempt := runs_enabled (items := [.txChunk (chunk s.params.maxPacket msg ci)]) hwf hscript hready
    (attemptHandsOverOneChunk s msg ci t0 s.now true htx (BitVec.le_refl _)) rfl
  simpa [sentBytes, issued] using hattempt

theorem runs_accept {s : State} {msg : Bytes} {ci : Nat} {t0 : Tick} {rest : List Move} (hwf : s.params.Wf)
    (hph : s.ph = .awaitTx) (htx : s.tx = .busy msg ci t0 .awaitResult) (hscript : s.script = acceptMove :: rest) :
    Runs 1 s
      { s with
        tx := if ci + 1 = nch s.params.maxPacket msg then .done true
          else .busy msg (ci + 1) s.now (.ready true s.now)
        script := rest
        trace := s.trace ++ [.accepted .txResultOk] } [] [] := by
  have hwaits : s.internalTransition = none :=
    internalTransition_eq_none.2 ⟨controlTransition_of_not_done hph (by simp [htx]), by
      simp [State.transmitTransition, htx]⟩
  obtain ⟨hok, -⟩ := transportOkAndErr { s with script := rest, trace := s.trace ++ [.accepted .txResultOk] }
    msg ci t0 htx
  exact runs_whenIdle (items := []) hwf hscript hwaits rfl (keepsContract_of_not_completion rfl) hok
    (List.append_nil _).symm

/-- One chunk: the attempt hands it over, and the transport's Ok ends it. -/
theorem runs_chunk {s : State} {msg : Bytes} {ci : Nat} {t0 : Tick} {rest : List Move} (hwf : s.params.Wf)
    (hph : s.ph = .awaitTx) (htx : s.tx = .busy msg ci t0 (.ready true s.now))
    (hscript : s.script = acceptMove :: rest) :
    ∃ trace, Runs 2 s
      { s with
        tx := if ci + 1 = nch s.params.maxPacket msg then .done true
          else .busy msg (ci + 1) s.now (.ready true s.now)
        script := rest
        trace := trace } (chunk s.params.maxPacket msg ci) [] := by
  have hrun := runs_trans (runs_attempt hwf hph htx (.inr ⟨_, rest, hscript⟩)) (runs_accept hwf hph rfl hscript)
  rw [List.append_nil] at hrun
  exact ⟨_, hrun⟩

/-- The chunks from `ci` on, each accepted: by induction on how many follow the first. -/
theorem runs_chunks {msg : Bytes} {rest : List Move} {k : Nat} : ∀ {s : State} {ci : Nat} {t0 : Tick}, s.params.Wf →
    s.ph = .awaitTx → s.tx = .busy msg ci t0 (.ready true s.now) → nch s.params.maxPacket msg = ci + (k + 1) →
    s.script = List.replicate (k + 1) acceptMove ++ rest →
    ∃ trace, Runs (2 * (k + 1)) s { s with tx := .done true, script := rest, trace := trace }
      (msg.drop (ci * s.params.maxPacket)) [] := by
  induction k with
  | zero =>
    intro s ci t0 hwf hph htx hnch hscript
    obtain ⟨trace, hrun⟩ := runs_chunk hwf hph htx hscript
    rw [if_pos hnch.symm] at hrun
    obtain ⟨-, -, -, -, -, -, hmp, -⟩ := hwf
    have hlast : msg.length ≤ (ci + 1) * s.params.maxPacket := (nch_le_iff hmp _).1 hnch.le
    rw [Nat.succ_mul] at hlast
    have hchunk : chunk s.params.maxPacket msg ci = msg.drop (ci * s.params.maxPacket) :=
      List.take_of_length_le (by rw [List.length_drop]; omega)
    exact ⟨trace, hchunk ▸ hrun⟩
  | succ k ih =>
    intro s ci t0 hwf hph htx hnch hscript
    obtain ⟨trace, hrun⟩ := runs_chunk hwf hph htx hscript
    rw [if_neg (by omega)] at hrun
    obtain ⟨trace', hrest⟩ := ih (s := { s with
      tx := .busy msg (ci + 1) s.now (.ready true s.now)
      script := List.replicate (k + 1) acceptMove ++ rest
      trace := trace }) hwf hph rfl (by dsimp only; omega) rfl
    have hboth := runs_trans hrun hrest
    have hsplit : chunk s.params.maxPacket msg ci ++ msg.drop ((ci + 1) * s.params.maxPacket) =
        msg.drop (ci * s.params.maxPacket) := by
      rw [chunk, Nat.succ_mul, ← List.drop_drop, List.take_append_drop]
    have hlen : 2 + 2 * (k + 1) = 2 * (k + 1 + 1) := by omega
    rw [hsplit, hlen] at hboth
    exact ⟨trace', hboth⟩

/-- A message from its start to its end. -/
theorem runs_message {s : State} {msg : Bytes} {t0 : Tick} {rest : List Move} (hwf : s.params.Wf)
    (hph : s.ph = .awaitTx) (hmsg : msg ≠ []) (htx : s.tx = .busy msg 0 t0 (.ready true s.now))
    (hscript : s.script = List.replicate (nch s.params.maxPacket msg) acceptMove ++ rest) :
    ∃ trace, Runs (2 * nch s.params.maxPacket msg) s
      { s with tx := .done true, script := rest, trace := trace } msg [] := by
  have ⟨_, _, _, _, _, _, hmp, _⟩ := hwf
  have hpos : 0 < nch s.params.maxPacket msg :=
    (lt_nch_iff hmp 0).2 (by rw [Nat.zero_mul]; exact List.length_pos_iff.2 hmsg)
  obtain ⟨k, hk⟩ := Nat.exists_eq_succ_of_ne_zero hpos.ne'
  rw [hk] at hscript ⊢
  obtain ⟨trace, hrun⟩ := runs_chunks hwf hph htx (by omega) hscript
  rw [Nat.zero_mul, List.drop_zero] at hrun
  exact ⟨trace, hrun⟩

/-- Settles O58: chunk after chunk, by induction. -/
theorem acceptedMessageIsSentWhole : Obligations.AcceptedMessageIsSentWhole := by
  intro s msg t0 rest hwf hph hmsg htx hscript
  obtain ⟨trace, hrun⟩ := runs_message hwf hph hmsg htx hscript
  exact ⟨_, hrun.run, rfl, hrun.sent⟩

end Sys2Proof.Proofs
end

section
/-! The end-to-end run of EchoWrite (45_message_pipeline.md R325 to R334, 60_exceptions.md R362, R363): the request, the
handler's answer, the frame that carries it, and the return to WaitForMessage. -/

namespace Sys2Proof.Proofs
open Sys2Proof.Machine Sys2Proof.Safety

theorem holdsBack_accepts {rest : List Move} (hrest : HoldsBack rest) (n : Nat) :
    HoldsBack (List.replicate n acceptMove ++ rest) := by
  cases n with
  | zero => exact hrest
  | succ n => exact .inr ⟨_, _, rfl⟩

/-! ### The request and its answer -/

theorem runs_issue {v : State} {c : CommandOwned} (hwf : v.params.Wf) (hst : v.st = .executeAction) (hph : v.ph = .run)
    (hcmd : v.cmd = some c) (hscript : HoldsBack v.script) :
    Runs 1 v { v with resp := [], ph := .awaitExec, trace := v.trace ++ [.execReq c v.cmdBuf] } [] [(c, v.cmdBuf)] := by
  have hrow : v.controlTransition = some .executeActionStart :=
    (controlTransitionTable v _ (by simp [hst, hph, legalPair])).2 (by simp [hst, hph])
  exact runs_row (items := [.execReq c v.cmdBuf]) hwf hscript hrow
    (executeActionIssuesTheOwnedCommand v c hst hph hcmd) rfl

theorem internalTransition_of_awaitExec {v : State} (hst : v.st = .executeAction) (hph : v.ph = .awaitExec)
    (hidle : v.tx = .idle) : v.internalTransition = none := by
  refine internalTransition_eq_none.2 ⟨?_, transmitTransition_of_idle hidle⟩
  rw [Option.eq_none_iff_forall_ne_some]
  intro i hi
  simpa [hst, hph] using (controlTransitionTable v i (by simp [hst, hph, legalPair])).1 hi

section answer
variable {v : State} {w : EventWord} {rest : List Move} (hwf : v.params.Wf) (hst : v.st = .executeAction)
  (hph : v.ph = .awaitExec) (hidle : v.tx = .idle) (hscript : v.script = .whenIdle w :: rest)
include hwf hst hph hidle hscript

/-- The handler's one answer is taken, since the contract asks for it. -/
theorem runs_answer {i : Instr} {t : State} {p : Pattern} (hanswer : echoAnswer v.params v.cmdBuf = i)
    (hevent : decodeEvent w = .ok i)
    (hexec : exec i { v with script := rest, trace := v.trace ++ [.accepted i] } = .next t)
    (htrace : t.trace = v.trace ++ [.accepted i] ++ [.statusWrite p]) : Runs 1 v t [] [] :=
  runs_whenIdle hwf hscript (internalTransition_of_awaitExec hst hph hidle) hevent
    (hanswer ▸ keepsContract_echoAnswer v) hexec htrace

theorem runs_echoed (hfit : (v.params.echoPrefix ++ v.cmdBuf).length ≤ v.params.respCap)
    (hevent : decodeEvent w = .ok (.execOk (v.params.echoPrefix ++ v.cmdBuf))) :
    ∃ trace, Runs 1 v
      { v with
        resp := v.params.echoPrefix ++ v.cmdBuf
        cmd := none
        cmdBuf := []
        st := .sendResponse
        ph := .run
        status := some (pat v .sendResponse)
        script := rest
        trace := trace } [] [] := by
  have hexec := execOk_completes (s := { v with
    script := rest, trace := v.trace ++ [.accepted (.execOk (v.params.echoPrefix ++ v.cmdBuf))] }) hst hph hfit
  exact ⟨_, runs_answer hwf hst hph hidle hscript (if_pos hfit) hevent hexec rfl⟩

theorem runs_not_echoed (hlong : ¬ (v.params.echoPrefix ++ v.cmdBuf).length ≤ v.params.respCap)
    (hevent : decodeEvent w = .ok (.execErr .bufferProcessFailed [])) :
    ∃ trace, Runs 1 v
      { v with
        resp := []
        cmd := none
        cmdBuf := []
        st := .error .bufferProcessFailed
        ph := .run
        status := some (pat v (.error .bufferProcessFailed))
        script := rest
        trace := trace } [] [] := by
  have hexec := execErr_completes (r := []) (s := { v with
    script := rest, trace := v.trace ++ [.accepted (.execErr .bufferProcessFailed [])] }) hst hph
    (Nat.zero_le _) .bufferProcessFailed
  exact ⟨_, runs_answer hwf hst hph hidle hscript (if_neg hlong) hevent hexec rfl⟩

end answer

/-! ### The reply -/

section ends
variable {v : State} {ok : Bool} (hwf : v.params.Wf) (hph : v.ph = .awaitTx) (htx : v.tx = .done ok)
  (hscript : HoldsBack v.script)
include hwf hph htx hscript

theorem runs_responseSent (hst : v.st = .sendResponse) :
    Runs 1 v
      { v with
        tx := .idle
        resp := []
        st := .waitForMessage
        ph := .run
        status := some (pat v .waitForMessage)
        trace := v.trace ++ [.statusWrite (pat v .waitForMessage)] } [] [] := by
  have hrow : v.controlTransition = some .responseSent :=
    (controlTransitionTable v _ (by simp [hst, hph, legalPair])).2 (by simp [hst, hph, htx])
  obtain ⟨-, hsent⟩ := finishedTransmissionEntersWaitForMessage v ok hph htx
  exact runs_row (items := [.statusWrite (pat v .waitForMessage)]) hwf hscript hrow (hsent hst) rfl

theorem runs_errorResolve {k : ErrorKind} (hst : v.st = .error k) (hhs : v.hsDone = true) :
    Runs 1 v
      { v with
        tx := .idle
        resp := []
        cmd := none
        cmdBuf := []
        st := .waitForMessage
        ph := .run
        status := some (pat v .waitForMessage)
        trace := v.trace ++ [.statusWrite (pat v .waitForMessage)] } [] [] := by
  have hrow : v.controlTransition = some .errorResolve :=
    (controlTransitionTable v _ (by simp [hst, hph, legalPair])).2 (by simp [hst, hph, htx])
  obtain ⟨hresolved, -⟩ := errorResolvesForward v k ok hst hph htx
  exact runs_row (items := [.statusWrite (pat v .waitForMessage)]) hwf hscript hrow (hresolved hhs) rfl

end ends

section reply
variable {v : State} {F : Bytes} {rest : List Move} (hwf : v.params.Wf) (hrest : HoldsBack rest)
  (hph : v.ph = .run) (hidle : v.tx = .idle)
  (hscript : v.script = List.replicate (nch v.params.maxPacket F) acceptMove ++ rest)
include hwf hrest hph hidle hscript

theorem runs_response (hst : v.st = .sendResponse) (hF : encodeFrame v.params.txCap v.resp = some F) :
    ∃ trace, Runs (2 * nch v.params.maxPacket F + 2) v
      { v with
        tx := .idle
        resp := []
        st := .waitForMessage
        ph := .run
        status := some (pat v .waitForMessage)
        script := rest
        trace := trace } F [] := by
  have hrow : v.controlTransition = some .sendResponseStart :=
    (controlTransitionTable v _ (by simp [hst, hph, legalPair])).2 (by simp [hst, hph])
  obtain ⟨hstart, -⟩ := sendResponseFramesTheResponse v hst hph
  have hbegin := runs_row (items := []) hwf (hscript ▸ holdsBack_accepts hrest _) hrow (hstart F hF hidle)
    (List.append_nil _).symm
  obtain ⟨trace, hsend⟩ := runs_message (s := { v with tx := .busy F 0 v.now (.ready true v.now), ph := .awaitTx }) hwf
    rfl (ne_nil_of_encodeFrame hF) rfl hscript
  have hrun := runs_trans (runs_trans hbegin hsend) (runs_responseSent hwf rfl rfl hrest hst)
  rw [List.append_nil, Nat.add_comm 1] at hrun
  exact ⟨_, hrun⟩

theorem runs_error_message {k : ErrorKind} (hst : v.st = .error k) (hhs : v.hsDone = true)
    (hF : encodeFrame v.params.txCap (errorMessage v.params.txCap k v.resp) = some F) :
    ∃ trace, Runs (2 * nch v.params.maxPacket F + 2) v
      { v with
        tx := .idle
        resp := []
        cmd := none
        cmdBuf := []
        st := .waitForMessage
        ph := .run
        status := some (pat v .waitForMessage)
        script := rest
        trace := trace } F [] := by
  have hrow : v.controlTransition = some .errorAction :=
    (controlTransitionTable v _ (by simp [hst, hph, legalPair])).2 (by simp [hst, hph])
  have hstart : exec .errorAction v = _ := execErrorAction_eq_next.2 ⟨k, F, hst, hph, hF, emit_frame hF hidle⟩
  have hbegin := runs_row (items := []) hwf (hscript ▸ holdsBack_accepts hrest _) hrow hstart (List.append_nil _).symm
  obtain ⟨trace, hsend⟩ := runs_message (s := { v with tx := .busy F 0 v.now (.ready true v.now), ph := .awaitTx }) hwf
    rfl (ne_nil_of_encodeFrame hF) rfl hscript
  have hrun := runs_trans (runs_trans hbegin hsend) (runs_errorResolve hwf rfl rfl hrest hst hhs)
  rw [List.append_nil, Nat.add_comm 1] at hrun
  exact ⟨_, hrun⟩

end reply

/-- A waiting block of the invariant has nothing in flight. -/
theorem blockInv_waitForMessage {s : State} (h : BlockInv s) (hst : s.st = .waitForMessage) :
    s.ph = .run ∧ s.tx = .idle ∧ s.hsDone = true ∧ s.fr = none ∧ s.cmd = none ∧ s.cmdBuf = [] ∧ s.resp = [] := by
  have hph : s.ph = .run := by
    have hlegal := h.legal
    cases hphase : s.ph <;> simp [hst, hphase, legalPair] at hlegal ⊢
  exact ⟨hph, blockInv_idle h (by simp [hph]), blockInv_hsDone h (.inl hst), blockInv_fr h (by simp [hst]),
    blockInv_cmd h (by simp [hst]), h.operands (by simp [hst]), h.response (by simp [hst]) (by simp [hst])⟩

/-! ### From the first byte to the return -/

/-- `s` with EchoWrite of `q` issued to the handler. -/
def awaitingEcho (s : State) (q : Bytes) (script : List Move) (trace : List TraceItem) : State :=
  { s with
    cmdBuf := q
    fb := []
    fr := none
    cmd := some .echoWrite
    resp := []
    st := .executeAction
    ph := .awaitExec
    status := some (pat s .executeAction)
    script := script
    trace := trace }

/-- `s` waiting for a message with nothing in flight. -/
def waitingAgain (s : State) (script : List Move) (trace : List TraceItem) : State :=
  { s with
    cmdBuf := []
    fb := []
    fr := none
    cmd := none
    resp := []
    tx := .idle
    st := .waitForMessage
    ph := .run
    status := some (pat s .waitForMessage)
    script := script
    trace := trace }

/-- A waiting block of the invariant has nothing in flight but its buffer. -/
theorem waitingAgain_eq {s : State} (h : BlockInv s) (hst : s.st = .waitForMessage) (hfb : s.fb = [])
    (script : List Move) (trace : List TraceItem) :
    waitingAgain s script trace =
      { s with script := script, status := some (pat s .waitForMessage), trace := trace } := by
  obtain ⟨hph, hidle, -, hfr, hcmd, hcmdBuf, hresp⟩ := blockInv_waitForMessage h hst
  simp [waitingAgain, hst, hfb, hph, hidle, hfr, hcmd, hcmdBuf, hresp]

/-- The frame of EchoWrite is reassembled, parsed and issued. -/
theorem runs_echo_request {s : State} {q : Bytes} {moves : List Move} (hinv : BlockInv s)
    (hst : s.st = .waitForMessage) (hfb : s.fb = []) (hq : q.length ≤ s.params.cmdCap) (hlen : q.length + 2 < 2 ^ 32)
    (hcap : plen (q.length + 2) + (q.length + 2) ≤ s.params.fbCap)
    (hscript : s.script = rxMoves (varintEncode (q.length + 2) ++ 0x01 :: 0x02 :: q) ++ moves)
    (hmoves : HoldsBack moves) :
    ∃ trace, Runs (plen (q.length + 2) + (q.length + 2) + 3) s (awaitingEcho s q moves trace) [] [(.echoWrite, q)] := by
  obtain ⟨hph, hidle, -⟩ := blockInv_waitForMessage hinv hst
  have hparse : parsePayload s.params.cmdCap (0x01 :: 0x02 :: q) = .ok (.echoWrite, q) := by
    simp only [parsePayload, cmdDecode_echoWrite, toOwned_echoWrite_of_le hq]
  obtain ⟨trace, hrequest⟩ := runs_owned (P := 0x01 :: 0x02 :: q) hinv.params hst hph hidle hfb hlen hcap hscript hmoves
    hparse
  exact ⟨_, runs_trans hrequest (runs_issue hinv.params rfl hph rfl hmoves)⟩

/-- The one answer of the contract is taken, and its frame is sent. -/
theorem runs_echo_reply {s : State} {q F : Bytes} {w : EventWord} {rest : List Move} (hwf : s.params.Wf)
    (hidle : s.tx = .idle) (hhs : s.hsDone = true)
    (hF : encodeFrame s.params.txCap
      (if (s.params.echoPrefix ++ q).length ≤ s.params.respCap then s.params.echoPrefix ++ q
      else errorMessage s.params.txCap .bufferProcessFailed []) = some F)
    (hevent : decodeEvent w = .ok
      (if (s.params.echoPrefix ++ q).length ≤ s.params.respCap then .execOk (s.params.echoPrefix ++ q)
      else .execErr .bufferProcessFailed []))
    (hrest : HoldsBack rest) (trace₀ : List TraceItem) :
    ∃ trace, Runs (2 * nch s.params.maxPacket F + 3)
      (awaitingEcho s q (.whenIdle w :: (List.replicate (nch s.params.maxPacket F) acceptMove ++ rest)) trace₀)
      (waitingAgain s rest trace) F [] := by
  generalize hreplies : List.replicate (nch s.params.maxPacket F) acceptMove ++ rest = replies
  by_cases hfit : (s.params.echoPrefix ++ q).length ≤ s.params.respCap
  · rw [if_pos hfit] at hF hevent
    obtain ⟨trace₁, hanswer⟩ := runs_echoed (v := awaitingEcho s q (.whenIdle w :: replies) trace₀)
      hwf rfl rfl hidle rfl hfit hevent
    obtain ⟨trace₂, hreply⟩ := runs_response (v := { awaitingEcho s q (.whenIdle w :: replies) trace₀ with
      resp := s.params.echoPrefix ++ q, cmd := none, cmdBuf := [], st := .sendResponse, ph := .run
      status := some (pat s .sendResponse), script := replies, trace := trace₁ })
      hwf hrest rfl hidle hreplies.symm rfl hF
    have hrun := runs_trans hanswer hreply
    rw [Nat.add_comm 1] at hrun
    exact ⟨trace₂, hrun⟩
  · rw [if_neg hfit] at hF hevent
    obtain ⟨trace₁, hanswer⟩ := runs_not_echoed (v := awaitingEcho s q (.whenIdle w :: replies) trace₀)
      hwf rfl rfl hidle rfl hfit hevent
    obtain ⟨trace₂, hreply⟩ := runs_error_message (v := { awaitingEcho s q (.whenIdle w :: replies) trace₀ with
      resp := [], cmd := none, cmdBuf := [], st := .error .bufferProcessFailed, ph := .run
      status := some (pat s (.error .bufferProcessFailed)), script := replies, trace := trace₁ }) hwf hrest rfl hidle
      hreplies.symm rfl hhs hF
    have hrun := runs_trans hanswer hreply
    rw [Nat.add_comm 1] at hrun
    exact ⟨trace₂, hrun⟩

/-- Settles O60: reassembly and parse, the request, the one answer of the contract, and its frame sent whole, for both
answers. -/
theorem framedEchoIsAnsweredByOneFrame : Obligations.FramedEchoIsAnsweredByOneFrame := by
  intro s q F w rest hinv hst hfb hq hlen hcap hF hevent hscript hrest
  obtain ⟨-, hidle, hhs, -⟩ := blockInv_waitForMessage hinv hst
  rw [List.append_assoc, List.cons_append] at hscript
  obtain ⟨trace₀, hrequest⟩ := runs_echo_request hinv hst hfb hq hlen hcap hscript (.inr ⟨w, _, rfl⟩)
  obtain ⟨trace, hreply⟩ := runs_echo_reply hinv.params hidle hhs hF hevent hrest trace₀
  have hrun := runs_trans hrequest hreply
  have hcount : plen (q.length + 2) + (q.length + 2) + 3 + (2 * nch s.params.maxPacket F + 3) =
      plen (q.length + 2) + (q.length + 2) + 2 * nch s.params.maxPacket F + 6 := by omega
  rw [hcount] at hrun
  exact ⟨_, hrun.run, waitingAgain_eq hinv hst hfb rest trace, hrun.issued, hrun.sent⟩

end Sys2Proof.Proofs
end
